-- ==== Sys2Proof/Word.lean ====
section
/-! DEFINITION. The word types of CORE: every quantity is unsigned (00 R9, 43 R104), so each is a plain bit vector of the width the spec gives it. -/

namespace Sys2Proof

/-- An 8-bit value: a general register, a timer, the stack pointer, a byte of memory (10 R10, 20 R30). -/
abbrev Byte := BitVec 8

/-- A 16-bit value: the program counter, the index register, a stack entry, the instruction word W (10 R14, R17, R22, 30 R51). -/
abbrev Word := BitVec 16

/-- The index of a general register: a 4-bit field of the instruction word, every value valid (10 R10). -/
abbrev Reg := BitVec 4

/-- The 12-bit address operand nnn (30 R52). -/
abbrev Addr12 := BitVec 12

/-- The index of VF, the flag register V[15] (10 R12). -/
abbrev Reg.vf : Reg := 15#4

end Sys2Proof
end

