-- ==== Sys2Proof/Config.lean ====
section
/-! DEFINITION. What the spec leaves to an implementation: the named parameters of 00 R8 as plain data, the inputs of a step (40 R70), and the free values, opaque constants no proof can see into. The parameters' defaults are in Machine/Defaults.lean. -/

namespace Sys2Proof

/-- ALIAS_ORDER (00 R8, 43 R103): how 8XY5 and 8XY6 behave when x or y is 0xF. -/
inductive AliasOrder where
  | sequential  -- the row's statements run in order, each reading the current registers
  | latched     -- the operands are read once, before the flag is written
  deriving DecidableEq, Repr

/-- KEY_OOR (00 R8, 45 R122): what EX9E and EXA1 do when Vx > 15. -/
inductive KeyOor where
  | fault       -- raise KeyIndexOutOfRange
  | notPressed  -- as if the key were not pressed
  | mask4       -- use the low four bits
  deriving DecidableEq, Repr

/-- The parameters of 00 R8 that are not contents of memory. They are fixed for a machine. -/
structure Params where
  /-- MEM_SIZE: addresses 0 .. memSize - 1 are valid (20 R31). -/
  memSize : Nat
  /-- ALIAS_ORDER (43 R103). -/
  aliasOrder : AliasOrder
  /-- DRAW_WRITES_VF (44 R112). -/
  drawWritesVf : Bool
  /-- KEY_OOR (45 R122). -/
  keyOor : KeyOor
  deriving DecidableEq, Repr

/-- The four inputs of one step, `step(stop, keys, rnd, collision)` of 40 R70 (60 R159 to R162). -/
structure Inputs where
  /-- STOP (60 R162). -/
  stop : Bool
  /-- KEY: bit k is true when key k is down (60 R160). -/
  keys : BitVec 16
  /-- RND (60 R161). -/
  rnd : Byte
  /-- DISP's collision bit (60 R159). -/
  collision : Bool
  deriving DecidableEq, Repr

/-- FREE VALUE (60 R160, log 7): the keyboard levels at the step numbered by the argument. -/
opaque Config.freeKeys : Nat → BitVec 16

/-- FREE VALUE (60 R161, log 7): the random byte at the step numbered by the argument. -/
opaque Config.freeRnd : Nat → Byte

/-- FREE VALUE (60 R159, log 7): the collision bit at the step numbered by the argument. -/
opaque Config.freeCollision : Nat → Bool

/-- FREE VALUE (log 13): what a RET reads at the step numbered by the first argument through a stack pointer above 15, where STACK has no entry. No run reaches such a pointer (10 R27). -/
opaque Config.freeStackEntry : Nat → Byte → Word

end Sys2Proof
end

