-- ==== Sys2Proof/Syntax.lean ====
section
/-! DEFINITION. The 25 instructions of the dispatch table (30 R56), one constructor a row, in the table's order. An operand is the field of the word as extracted (30 R54); a field the instruction ignores (30 R58) is no operand. -/

namespace Sys2Proof

/-- The instruction set, complete (00 R2, 30 R56). -/
inductive Instr where
  | ret                            -- 0---  RET            41 R80
  | jp (nnn : Addr12)              -- 1NNN  JP NNN         41 R81
  | call (nnn : Addr12)            -- 2NNN  CALL NNN       41 R82
  | se (x : Reg) (kk : Byte)       -- 3XKK  SE Vx, KK      41 R83
  | sne (x : Reg) (kk : Byte)      -- 4XKK  SNE Vx, KK     41 R84
  | ldImm (x : Reg) (kk : Byte)    -- 6XKK  LD Vx, KK      42 R90
  | addImm (x : Reg) (kk : Byte)   -- 7XKK  ADD Vx, KK     42 R91
  | ldReg (x y : Reg)              -- 8XY0  LD Vx, Vy      43 R96
  | or (x y : Reg)                 -- 8XY1  OR Vx, Vy      43 R97
  | and (x y : Reg)                -- 8XY2  AND Vx, Vy     43 R98
  | xor (x y : Reg)                -- 8XY3  XOR Vx, Vy     43 R99
  | add (x y : Reg)                -- 8XY4  ADD Vx, Vy     43 R100
  | sub (x y : Reg)                -- 8XY5  SUB Vx, Vy     43 R101
  | shr (x : Reg)                  -- 8X-6  SHR Vx         43 R102
  | ldI (nnn : Addr12)             -- ANNN  LD I, NNN      44 R110
  | rnd (x : Reg) (kk : Byte)      -- CXKK  RND Vx, KK     44 R111
  | drw (x y : Reg) (n : BitVec 4) -- DXYN  DRW Vx, Vy, N  44 R112
  | skp (x : Reg)                  -- EX9E  SKP Vx         45 R120
  | sknp (x : Reg)                 -- EXA1  SKNP Vx        45 R121
  | ldVxDt (x : Reg)               -- FX07  LD Vx, DT      46 R126
  | ldDtVx (x : Reg)               -- FX15  LD DT, Vx      46 R127
  | ldStVx (x : Reg)               -- FX18  LD ST, Vx      46 R128
  | ldF (x : Reg)                  -- FX29  LD F, Vx       46 R129
  | ldB (x : Reg)                  -- FX33  LD B, Vx       46 R130
  | ldRegs (x : Reg)               -- FX65  LD Vx, [I]     46 R131
  deriving DecidableEq, Repr

end Sys2Proof
end

