-- ==== Sys2Proof/WellFormed.lean ====
section
/-! DEFINITION. The checks: a word is in the dispatch table (30 R56, R57), and the parameters are in the ranges of 00 R8. Every term of Instr is well formed by its type: an operand is a bit vector of its field's width, and every value of a field is valid (10 R10, 30 R54). -/

namespace Sys2Proof

/-- A row of the dispatch table: W is the row's instruction exactly when (W AND mask) = bits (30 R56). -/
structure OpcodeRow where
  mnemonic : String
  mask : Word
  bits : Word
  deriving DecidableEq, Repr

/-- The dispatch table, in its own order (30 R56). -/
def opcodeTable : List OpcodeRow := [
  ⟨"RET", 0xF000, 0x0000⟩,
  ⟨"JP_NNN", 0xF000, 0x1000⟩,
  ⟨"CALL_NNN", 0xF000, 0x2000⟩,
  ⟨"SE_Vx__KK", 0xF000, 0x3000⟩,
  ⟨"SNE_Vx__KK", 0xF000, 0x4000⟩,
  ⟨"LD_Vx__KK", 0xF000, 0x6000⟩,
  ⟨"ADD_Vx__KK", 0xF000, 0x7000⟩,
  ⟨"LD_Vx__Vy", 0xF00F, 0x8000⟩,
  ⟨"OR_Vx__Vy", 0xF00F, 0x8001⟩,
  ⟨"AND_Vx__Vy", 0xF00F, 0x8002⟩,
  ⟨"XOR_Vx__Vy", 0xF00F, 0x8003⟩,
  ⟨"ADD_Vx__Vy", 0xF00F, 0x8004⟩,
  ⟨"SUB_Vx__Vy", 0xF00F, 0x8005⟩,
  ⟨"SHR_Vx", 0xF00F, 0x8006⟩,
  ⟨"LD_I__NNN", 0xF000, 0xA000⟩,
  ⟨"RND_Vx__KK", 0xF000, 0xC000⟩,
  ⟨"DRW_Vx__Vy__N", 0xF000, 0xD000⟩,
  ⟨"SKP_Vx", 0xF0FF, 0xE09E⟩,
  ⟨"SKNP_Vx", 0xF0FF, 0xE0A1⟩,
  ⟨"LD_Vx__DT", 0xF0FF, 0xF007⟩,
  ⟨"LD_DT__Vx", 0xF0FF, 0xF015⟩,
  ⟨"LD_ST__Vx", 0xF0FF, 0xF018⟩,
  ⟨"LD_F__Vx", 0xF0FF, 0xF029⟩,
  ⟨"LD_B__Vx", 0xF0FF, 0xF033⟩,
  ⟨"LD_Vx___I", 0xF0FF, 0xF065⟩]

/-- The row of the table that an instruction stands for. -/
def Instr.row : Instr → OpcodeRow
  | .ret => ⟨"RET", 0xF000, 0x0000⟩
  | .jp _ => ⟨"JP_NNN", 0xF000, 0x1000⟩
  | .call _ => ⟨"CALL_NNN", 0xF000, 0x2000⟩
  | .se _ _ => ⟨"SE_Vx__KK", 0xF000, 0x3000⟩
  | .sne _ _ => ⟨"SNE_Vx__KK", 0xF000, 0x4000⟩
  | .ldImm _ _ => ⟨"LD_Vx__KK", 0xF000, 0x6000⟩
  | .addImm _ _ => ⟨"ADD_Vx__KK", 0xF000, 0x7000⟩
  | .ldReg _ _ => ⟨"LD_Vx__Vy", 0xF00F, 0x8000⟩
  | .or _ _ => ⟨"OR_Vx__Vy", 0xF00F, 0x8001⟩
  | .and _ _ => ⟨"AND_Vx__Vy", 0xF00F, 0x8002⟩
  | .xor _ _ => ⟨"XOR_Vx__Vy", 0xF00F, 0x8003⟩
  | .add _ _ => ⟨"ADD_Vx__Vy", 0xF00F, 0x8004⟩
  | .sub _ _ => ⟨"SUB_Vx__Vy", 0xF00F, 0x8005⟩
  | .shr _ => ⟨"SHR_Vx", 0xF00F, 0x8006⟩
  | .ldI _ => ⟨"LD_I__NNN", 0xF000, 0xA000⟩
  | .rnd _ _ => ⟨"RND_Vx__KK", 0xF000, 0xC000⟩
  | .drw _ _ _ => ⟨"DRW_Vx__Vy__N", 0xF000, 0xD000⟩
  | .skp _ => ⟨"SKP_Vx", 0xF0FF, 0xE09E⟩
  | .sknp _ => ⟨"SKNP_Vx", 0xF0FF, 0xE0A1⟩
  | .ldVxDt _ => ⟨"LD_Vx__DT", 0xF0FF, 0xF007⟩
  | .ldDtVx _ => ⟨"LD_DT__Vx", 0xF0FF, 0xF015⟩
  | .ldStVx _ => ⟨"LD_ST__Vx", 0xF0FF, 0xF018⟩
  | .ldF _ => ⟨"LD_F__Vx", 0xF0FF, 0xF029⟩
  | .ldB _ => ⟨"LD_B__Vx", 0xF0FF, 0xF033⟩
  | .ldRegs _ => ⟨"LD_Vx___I", 0xF0FF, 0xF065⟩

/-- The bits of its word that an instruction's row does not ignore: all of them but nnn of RET and y of SHR (30 R58). -/
def Instr.usedBits : Instr → Word
  | .ret => 0xF000
  | .shr _ => 0xFF0F
  | _ => 0xFFFF

/-- W is a supported word: it matches a row of the table (30 R56, R57). -/
def supportedWord (w : Word) : Bool :=
  opcodeTable.any fun r => w &&& r.mask == r.bits

/-- MEM_SIZE is in the range of 00 R8; the other parameters' ranges are their types. -/
abbrev Params.Ok (p : Params) : Prop := 0x202 ≤ p.memSize ∧ p.memSize ≤ 65536

end Sys2Proof
end

