-- ==== Sys2Proof/Decode.lean ====
section
/-! DEFINITION. The opcode decoder (30 R50 to R58), total on any two bytes, refusing an unsupported word by name, and after it the encoder, written from the same table. -/

namespace Sys2Proof

/-- Why a word is no instruction. -/
inductive DecodeError where
  /-- Raised by `decode` for a word that matches no row of the table (30 R57). SAFE: the machine takes the fault UnsupportedInstruction, as the spec says. -/
  | unsupportedWord (w : Word)
  deriving DecidableEq, Repr

/-- The instruction word, hi the byte at the lower address (30 R51, 20 R35). -/
def wordOf (hi lo : Byte) : Word := hi ++ lo

/-- op = W[15:12] (30 R52). -/
def opField (w : Word) : BitVec 4 := w.extractLsb' 12 4

/-- x = W[11:8] (30 R52). -/
def xField (w : Word) : Reg := w.extractLsb' 8 4

/-- y = W[7:4] (30 R52). -/
def yField (w : Word) : Reg := w.extractLsb' 4 4

/-- n = W[3:0] (30 R52). -/
def nField (w : Word) : BitVec 4 := w.extractLsb' 0 4

/-- kk = W[7:0] (30 R52). -/
def kkField (w : Word) : Byte := w.extractLsb' 0 8

/-- nnn = W[11:0] (30 R52). -/
def nnnField (w : Word) : Addr12 := w.extractLsb' 0 12

/-- Family 0x8, selected by the sub-key n (30 R55). -/
def decodeFamily8 (w : Word) : Option Instr :=
  match nField w with
  | 0x0#4 => some (.ldReg (xField w) (yField w))
  | 0x1#4 => some (.or (xField w) (yField w))
  | 0x2#4 => some (.and (xField w) (yField w))
  | 0x3#4 => some (.xor (xField w) (yField w))
  | 0x4#4 => some (.add (xField w) (yField w))
  | 0x5#4 => some (.sub (xField w) (yField w))
  | 0x6#4 => some (.shr (xField w))
  | _ => none

/-- Family 0xE, selected by the sub-key kk (30 R55). -/
def decodeFamilyE (w : Word) : Option Instr :=
  match kkField w with
  | 0x9E#8 => some (.skp (xField w))
  | 0xA1#8 => some (.sknp (xField w))
  | _ => none

/-- Family 0xF, selected by the sub-key kk (30 R55). -/
def decodeFamilyF (w : Word) : Option Instr :=
  match kkField w with
  | 0x07#8 => some (.ldVxDt (xField w))
  | 0x15#8 => some (.ldDtVx (xField w))
  | 0x18#8 => some (.ldStVx (xField w))
  | 0x29#8 => some (.ldF (xField w))
  | 0x33#8 => some (.ldB (xField w))
  | 0x65#8 => some (.ldRegs (xField w))
  | _ => none

/-- The dispatch on the leading nibble, then on the family's sub-key (30 R55); none on an unsupported word (30 R57). -/
def decodeWord (w : Word) : Option Instr :=
  match opField w with
  | 0x0#4 => some .ret
  | 0x1#4 => some (.jp (nnnField w))
  | 0x2#4 => some (.call (nnnField w))
  | 0x3#4 => some (.se (xField w) (kkField w))
  | 0x4#4 => some (.sne (xField w) (kkField w))
  | 0x6#4 => some (.ldImm (xField w) (kkField w))
  | 0x7#4 => some (.addImm (xField w) (kkField w))
  | 0x8#4 => decodeFamily8 w
  | 0xA#4 => some (.ldI (nnnField w))
  | 0xC#4 => some (.rnd (xField w) (kkField w))
  | 0xD#4 => some (.drw (xField w) (yField w) (nField w))
  | 0xE#4 => decodeFamilyE w
  | 0xF#4 => decodeFamilyF w
  | _ => none

/-- The decoder on the two bytes of an instruction, high byte first (30 R51, R53). -/
def decode (hi lo : Byte) : Except DecodeError Instr :=
  match decodeWord (wordOf hi lo) with
  | some i => .ok i
  | none => .error (.unsupportedWord (wordOf hi lo))

/-- Format NNN: `o n n n` (30 section 3). -/
def formatNnn (op : BitVec 4) (nnn : Addr12) : Word := op ++ nnn

/-- Format XKK: `o x k k`; format XSS is the same with kk the sub-key (30 section 3). -/
def formatXkk (op : BitVec 4) (x : Reg) (kk : Byte) : Word := (op ++ x) ++ kk

/-- Format XYN: `o x y n` (30 section 3). -/
def formatXyn (op : BitVec 4) (x y : Reg) (n : BitVec 4) : Word := ((op ++ x) ++ y) ++ n

/-- The encoder (30 R56). The ignored fields are assembled as 30 R61 says: RET is 0x00EE and SHR has y = 0. -/
def encode : Instr → Word
  | .ret => 0x00EE#16
  | .jp nnn => formatNnn 0x1 nnn
  | .call nnn => formatNnn 0x2 nnn
  | .se x kk => formatXkk 0x3 x kk
  | .sne x kk => formatXkk 0x4 x kk
  | .ldImm x kk => formatXkk 0x6 x kk
  | .addImm x kk => formatXkk 0x7 x kk
  | .ldReg x y => formatXyn 0x8 x y 0x0
  | .or x y => formatXyn 0x8 x y 0x1
  | .and x y => formatXyn 0x8 x y 0x2
  | .xor x y => formatXyn 0x8 x y 0x3
  | .add x y => formatXyn 0x8 x y 0x4
  | .sub x y => formatXyn 0x8 x y 0x5
  | .shr x => formatXyn 0x8 x 0x0 0x6
  | .ldI nnn => formatNnn 0xA nnn
  | .rnd x kk => formatXkk 0xC x kk
  | .drw x y n => formatXyn 0xD x y n
  | .skp x => formatXkk 0xE x 0x9E
  | .sknp x => formatXkk 0xE x 0xA1
  | .ldVxDt x => formatXkk 0xF x 0x07
  | .ldDtVx x => formatXkk 0xF x 0x15
  | .ldStVx x => formatXkk 0xF x 0x18
  | .ldF x => formatXkk 0xF x 0x29
  | .ldB x => formatXkk 0xF x 0x33
  | .ldRegs x => formatXkk 0xF x 0x65

/-- The high byte of a word, stored at the lower address (20 R35). -/
def hiByte (w : Word) : Byte := w.extractLsb' 8 8

/-- The low byte of a word, stored at the higher address (20 R35). -/
def loByte (w : Word) : Byte := w.extractLsb' 0 8

/-- The 16-bit word that opcode_table.json's numbering gives: bit 0 of w is bit 0 of W, and the bits from nbits up are 0. -/
def tableWord (nbits w : Nat) : Word := BitVec.ofNat 16 (w % 2 ^ nbits)

/-- What the decoder reads from an instruction whose bits are w, numbered as opcode_table.json numbers them, laid out as two bytes, high byte first. -/
def decodeTableWord (nbits w : Nat) : Option Instr :=
  match decode (hiByte (tableWord nbits w)) (loByte (tableWord nbits w)) with
  | .ok i => some i
  | .error _ => none

end Sys2Proof
end

