-- ==== Sys2Proof/Machine/Defaults.lean ====
section
/-! DEFINITION. The defaults of the parameters (00 R8): the spec's own choices, recorded in its decisions D4, D5, D7, D9 and D16. -/

namespace Sys2Proof.Machine

/-- The defaults of 00 R8. Each is the spec's own choice (log 1 to 4); 4096 is from general knowledge (PRESUMED, log 1). -/
def defaultParams : Params :=
  { memSize := 4096, aliasOrder := .sequential, drawWritesVf := false, keyOor := .fault }

/-- The default of the parameter FONT: glyph g at bytes 5g .. 5g+4 (70 R172; the bytes are 93 section 2's, from general knowledge: PRESUMED, log 6). -/
def defaultFont : List Byte :=
  [0xF0, 0x90, 0x90, 0x90, 0xF0, 0x20, 0x60, 0x20, 0x20, 0x70,
   0xF0, 0x10, 0xF0, 0x80, 0xF0, 0xF0, 0x10, 0xF0, 0x10, 0xF0,
   0x90, 0x90, 0xF0, 0x10, 0x10, 0xF0, 0x80, 0xF0, 0x10, 0xF0,
   0xF0, 0x80, 0xF0, 0x90, 0xF0, 0xF0, 0x10, 0x20, 0x40, 0x40] ++
  [0xF0, 0x90, 0xF0, 0x90, 0xF0, 0xF0, 0x90, 0xF0, 0x10, 0xF0,
   0xF0, 0x90, 0xF0, 0x90, 0x90, 0xE0, 0x90, 0xE0, 0x90, 0xE0,
   0xF0, 0x80, 0x80, 0x80, 0xF0, 0xE0, 0x90, 0x90, 0x90, 0xE0,
   0xF0, 0x80, 0xF0, 0x80, 0xF0, 0xF0, 0x80, 0xF0, 0x80, 0x80]

/-- What an address that memory does not list reads as: the reset contents, FONT from address 0 on (70 R172) and MEM_INIT, by default zero, elsewhere (70 R174; log 6). The font's address is fixed by 00 R7. -/
def unlistedByte (a : Nat) : Byte := defaultFont.getD a 0x00

end Sys2Proof.Machine
end

