-- ==== Sys2Proof/Machine/State.lean ====
section
/-! DEFINITION. The state of CORE as plain data: everything 10_state.md and 20_memory.md give the machine, the parameters of 00 R8, and the model's own records of its ports; the reasons a run can stop; the state after reset. -/

namespace Sys2Proof.Machine

/-- The kind of a memory access, recorded by MemoryOutOfRange (60 R142). -/
inductive AccessKind where
  | fetch
  | read
  | write
  deriving DecidableEq, Repr

/-- The causes of a fault and the information each records (60 R142). -/
inductive Cause where
  | unsupportedInstruction (w : Word)                  -- 60 R143
  | stackOverflow (pc : Word)                          -- 60 R144
  | stackUnderflow (pc : Word)                         -- 60 R145
  | memoryOutOfRange (kind : AccessKind) (addr : Nat)  -- 60 R146
  | keyIndexOutOfRange (v : Byte)                      -- 60 R148
  deriving DecidableEq, Repr

/-- STATUS, the run status (10 R21). -/
inductive Status where
  | running
  | stopped
  | faulted (c : Cause)
  deriving DecidableEq, Repr

/-- One command on the display port: DrawSprite(x, y, bytes) (60 R159). -/
structure DrawCommand where
  x : Byte
  y : Byte
  rows : List Byte
  deriving DecidableEq, Repr

/-- Memory: address and byte pairs, addresses strictly rising, none listed that reads as unlistedByte says (20 R30). -/
abbrev Memory := List Host.Cell

/-- The state of the machine. -/
structure State where
  /-- V[0] .. V[15], VF = V[15] (10 R10). -/
  v : Vector Byte 16
  /-- PC (10 R14). -/
  pc : Word
  /-- I (10 R17). -/
  i : Word
  /-- STACK[0] .. STACK[15] (10 R22). -/
  stack : Vector Word 16
  /-- SP (10 R18). -/
  sp : Byte
  /-- DT (10 R19). -/
  dt : Byte
  /-- ST (10 R20). -/
  st : Byte
  /-- STATUS (10 R21). -/
  status : Status
  /-- The Memory Store as CORE sees it (20 R30). -/
  mem : Memory
  /-- The parameters (00 R8); no step changes them (log 5). -/
  params : Params
  /-- MODEL'S OWN: the commands sent on the port DISP, oldest first (60 R159, log 17). -/
  display : List DrawCommand
  /-- MODEL'S OWN: the inputs the environment presents at the coming steps, the next step's first (60 R158, log 7). -/
  env : List Inputs
  /-- MODEL'S OWN: the number of steps taken, the argument of Config's free values (log 7). -/
  draws : Nat
  deriving DecidableEq, Repr

/-- Why the machine has no next state. -/
inductive Fault where
  /-- Answered by step when STATUS is Stopped: no step is possible (40 R78). SAFE: the machine is halted for good. -/
  | runStopped
  /-- Answered by step when STATUS is Faulted(c): no step is possible (40 R78). SAFE: the machine is halted for good. -/
  | runFaulted (c : Cause)
  deriving DecidableEq, Repr

/-- Why an instruction has no meaning in the model. -/
inductive Refusal where
  /-- Answered by exec's arm of an instruction that has no meaning yet; no arm answers it now. SAFE: nothing is claimed of such an instruction. -/
  | notModelled (mnemonic : String)
  deriving DecidableEq, Repr

/-- The machine right after reset with parameters p and the default memory contents (10 R26, 70 R171, R172, R174). -/
def State.resetWith (p : Params) : State :=
  { v := Vector.replicate 16 0x00#8
    pc := 0x0200#16
    i := 0x0000#16
    stack := Vector.replicate 16 0x0000#16
    sp := 0x00#8
    dt := 0x00#8
    st := 0x00#8
    status := .running
    mem := []
    params := p
    display := []
    env := []
    draws := 0 }

/-- The machine right after reset (10 R26), with the default parameters: vector Z1 of 95. -/
def State.reset : State := State.resetWith defaultParams

end Sys2Proof.Machine
end

