-- ==== Sys2Proof/Machine/Ops.lean ====
section
/-! DEFINITION. The named operations over memory, registers, stack, timers and ports, and the one operation that raises a fault (60 R141). -/

namespace Sys2Proof.Machine

/-! ## Memory -/

/-- MEM[a]: the listed byte, else what an unlisted address reads as (20 R33). -/
def readByte : Memory → Nat → Byte
  | [], a => unlistedByte a
  | (k, b) :: m, a => if k = a then b else readByte m a

/-- Put an entry for a new address at its place. -/
def insertCell : Memory → Nat → Byte → Memory
  | [], a, b => [(a, b)]
  | (k, c) :: m, a, b => if a < k then (a, b) :: (k, c) :: m else (k, c) :: insertCell m a b

/-- MEM[a] <- b (20 R34), keeping the canonical form: the old entry goes, and a byte an unlisted address reads as is not listed. -/
def writeByte (m : Memory) (a : Nat) (b : Byte) : Memory :=
  if b = unlistedByte a then m.filter (fun c => c.1 ≠ a)
  else insertCell (m.filter fun c => c.1 ≠ a) a b

/-- MEM[a + k] <- bs[k] for every k (20 R34). -/
def writeBytes : Memory → Nat → List Byte → Memory
  | m, _, [] => m
  | m, a, b :: bs => writeBytes (writeByte m a b) (a + 1) bs

/-- MEM[a], MEM[a+1], .., MEM[a+n-1] in this order (20 R33). -/
def readBytes (m : Memory) : Nat → Nat → List Byte
  | _, 0 => []
  | a, n + 1 => readByte m a :: readBytes m (a + 1) n

/-- The canonical form: addresses strictly rising, and no entry equal to what an unlisted address reads as. -/
abbrev Memory.wf (m : Memory) : Prop :=
  m.Pairwise (fun c d => c.1 < d.1) ∧ ∀ c ∈ m, c.2 ≠ unlistedByte c.1

/-- The fault of an access to n bytes at the unbounded address addr, with the lowest address that is MEM_SIZE or more (00 R9 5.3, 20 R36, 60 R146); none if n = 0. -/
def accessFault (s : State) (kind : AccessKind) (addr n : Nat) : Option Cause :=
  if n ≠ 0 ∧ s.params.memSize < addr + n then
    some (.memoryOutOfRange kind (max addr s.params.memSize))
  else none

/-- MemRead(addr, n) (20 R33). -/
def memRead (s : State) (kind : AccessKind) (addr n : Nat) : Except Cause (List Byte) :=
  match accessFault s kind addr n with
  | some c => .error c
  | none => .ok (readBytes s.mem addr n)

/-- MemWrite(addr, n, v), n the length of v: all of the bytes or none (20 R34). -/
def memWrite (s : State) (addr : Nat) (v : List Byte) : Except Cause State :=
  match accessFault s .write addr v.length with
  | some c => .error c
  | none => .ok { s with mem := writeBytes s.mem addr v }

/-! ## Registers -/

/-- V[x] (10 R10). -/
def getV (s : State) (x : Reg) : Byte := s.v[x.toNat]'x.isLt

/-- V[x] <- b (10 R10). -/
def setV (s : State) (x : Reg) (b : Byte) : State := { s with v := s.v.set x.toNat b x.isLt }

/-- V[k] <- bs[0], V[k+1] <- bs[1], .. (46 R131). -/
def setVs : State → Nat → List Byte → State
  | s, _, [] => s
  | s, k, b :: bs => setVs { s with v := s.v.setIfInBounds k b } (k + 1) bs

/-- PC <- target (10 R15). -/
def setPc (s : State) (target : Word) : State := { s with pc := target }

/-- PC <- trunc_16(PC + 2) (40 R75). -/
def advance (s : State) : State := setPc s (s.pc + 2)

/-- PC <- trunc_16(PC + 4) if the condition holds, trunc_16(PC + 2) otherwise (40 R76). -/
def skipIf (c : Bool) (s : State) : State := setPc s (if c then s.pc + 4 else s.pc + 2)

/-- I <- a (10 R17). -/
def setI (s : State) (a : Word) : State := { s with i := a }

/-- DT <- b (10 R19). -/
def setDt (s : State) (b : Byte) : State := { s with dt := b }

/-- ST <- b (10 R20). -/
def setSt (s : State) (b : Byte) : State := { s with st := b }

/-! ## The call stack -/

/-- STACK[k]; an index above 15 names no entry, and what is read there is a free value (10 R22, log 13). -/
def stackEntry (s : State) (k : Byte) : Word :=
  if h : k.toNat < 16 then s.stack[k.toNat] else Config.freeStackEntry s.draws k

/-- SP <- SP + 1, then STACK[SP] <- w (41 R82); used only when SP < 15. -/
def push (s : State) (w : Word) : State :=
  { s with sp := s.sp + 1, stack := s.stack.setIfInBounds (s.sp + 1).toNat w }

/-- SP <- SP - 1, the popped entry kept (41 R80). -/
def pop (s : State) : State := { s with sp := s.sp - 1 }

/-! ## The timers -/

/-- One decrement that stops at zero (40 R73). -/
def countDown (b : Byte) : Byte := if b = 0 then 0 else b - 1

/-- The tick (40 R73). -/
def tick (s : State) : State := { s with dt := countDown s.dt, st := countDown s.st }

/-! ## The ports -/

/-- The inputs of the coming step: what the environment's list gives, and past its end free values with STOP not asserted (60 R159 to R162, log 7, log 8). -/
def inputs (s : State) : Inputs :=
  match s.env with
  | i :: _ => i
  | [] =>
    { stop := false, keys := Config.freeKeys s.draws, rnd := Config.freeRnd s.draws,
      collision := Config.freeCollision s.draws }

/-- The step is over: the next step has inputs of its own (60 R158). -/
def endStep (s : State) : State := { s with env := s.env.tail, draws := s.draws + 1 }

/-- KeyPressed(k) (60 R160). -/
def keyPressed (s : State) (k : BitVec 4) : Bool := (inputs s).keys.getLsbD k.toNat

/-- DrawSprite(x, y, bytes): one command on the port DISP (60 R159). -/
def sendDraw (s : State) (c : DrawCommand) : State := { s with display := s.display ++ [c] }

/-! ## Outcomes -/

/-- raise <Exception>(info): STATUS <- Faulted, and no other effect (60 R141, log 10). -/
def raise (c : Cause) (s : State) : Host.Outcome State Fault Refusal :=
  .next { s with status := .faulted c }

/-- The number of a cause (60 R142); no behaviour rests on it (D18). -/
def causeCode : Cause → Nat
  | .unsupportedInstruction _ => 1
  | .stackOverflow _ => 2
  | .stackUnderflow _ => 3
  | .memoryOutOfRange _ _ => 4
  | .keyIndexOutOfRange _ => 5

/-- Complete the instruction in the state given, or raise from s. -/
def complete (s : State) : Except Cause State → Host.Outcome State Fault Refusal
  | .ok t => .next t
  | .error c => raise c s

/-- The stop input was seen: STATUS <- Stopped, and no other effect (40 R71). -/
def stopRun (s : State) : Host.Outcome State Fault Refusal := .next { s with status := .stopped }

/-- Apply f to a next state. -/
def onNext (f : State → State) :
    Host.Outcome State Fault Refusal → Host.Outcome State Fault Refusal
  | .next t => .next (f t)
  | .fault r => .fault r
  | .refused r => .refused r

/-! ## Fetch -/

/-- The two bytes at PC and PC + 1, or the fault of the fetch (40 R72). -/
def fetch (s : State) : Except Cause (Byte × Byte) :=
  match accessFault s .fetch s.pc.toNat 2 with
  | some c => .error c
  | none => .ok (readByte s.mem s.pc.toNat, readByte s.mem (s.pc.toNat + 1))

/-- The word at PC, W = MEM[PC] : MEM[PC+1] (20 R35). -/
def wordAtPc (s : State) : Word :=
  wordOf (readByte s.mem s.pc.toNat) (readByte s.mem (s.pc.toNat + 1))

/-- s with the word w stored at PC and PC + 1, the high byte first (20 R35). -/
def placeWord (s : State) (w : Word) : State :=
  { s with mem := writeBytes s.mem s.pc.toNat [hiByte w, loByte w] }

end Sys2Proof.Machine
end

