-- ==== Sys2Proof/Machine/Flags.lean ====
section
/-! DEFINITION. The values VF receives: 0x01 or 0x00 (10 R12). -/

namespace Sys2Proof.Machine

/-- A flag as the byte VF receives (10 R12). -/
def flagByte (b : Bool) : Byte := if b then 0x01 else 0x00

/-- The carry of a 9-bit sum: 0x01 exactly when a + b > 255 (43 R100). -/
def carryFlag (a b : Byte) : Byte := flagByte (decide (255 < a.toNat + b.toNat))

/-- 0x01 exactly when a is strictly greater than b, unsigned (43 R101). -/
def greaterFlag (a b : Byte) : Byte := flagByte (decide (b.toNat < a.toNat))

/-- The bit a right shift by one moves out (43 R102). -/
def shiftedOut (a : Byte) : Byte := a &&& 0x01

/-- VF <- f (10 R12). -/
def setVf (s : State) (f : Byte) : State := setV s Reg.vf f

end Sys2Proof.Machine
end

