-- ==== Sys2Proof/Machine/Alu.lean ====
section
/-! DEFINITION. Register-register instructions, family 0x8 (43_alu.md). Where the row writes VF and then Vx, the two writes stand in that order; ALIAS_ORDER says which registers the second statement reads (43 R103). -/

namespace Sys2Proof.Machine

/-- LD Vx, Vy (43 R96). -/
def execLdReg (x y : Reg) (s : State) : Host.Outcome State Fault Refusal :=
  .next (advance (setV s x (getV s y)))

/-- OR Vx, Vy (43 R97). -/
def execOr (x y : Reg) (s : State) : Host.Outcome State Fault Refusal :=
  .next (advance (setV s x (getV s x ||| getV s y)))

/-- AND Vx, Vy (43 R98). -/
def execAnd (x y : Reg) (s : State) : Host.Outcome State Fault Refusal :=
  .next (advance (setV s x (getV s x &&& getV s y)))

/-- XOR Vx, Vy (43 R99). -/
def execXor (x y : Reg) (s : State) : Host.Outcome State Fault Refusal :=
  .next (advance (setV s x (getV s x ^^^ getV s y)))

/-- The state whose registers the second statement of 8XY5 and 8XY6 reads: the one after the flag is written (sequential) or the one before (latched) (43 R103). -/
def secondReads (before after : State) : State :=
  match before.params.aliasOrder with
  | .sequential => after
  | .latched => before

/-- ADD Vx, Vy (43 R100): the sum is taken before either write. -/
def execAdd (x y : Reg) (s : State) : Host.Outcome State Fault Refusal :=
  let a := getV s x
  let b := getV s y
  .next (advance (setV (setVf s (carryFlag a b)) x (a + b)))

/-- SUB Vx, Vy (43 R101, R103). -/
def execSub (x y : Reg) (s : State) : Host.Outcome State Fault Refusal :=
  let t := setVf s (greaterFlag (getV s x) (getV s y))
  let r := secondReads s t
  .next (advance (setV t x (getV r x - getV r y)))

/-- SHR Vx (43 R102, R103): logical, by one. -/
def execShr (x : Reg) (s : State) : Host.Outcome State Fault Refusal :=
  let t := setVf s (shiftedOut (getV s x))
  let r := secondReads s t
  .next (advance (setV t x (getV r x >>> 1)))

end Sys2Proof.Machine
end

