-- ==== Sys2Proof/Machine/Operands.lean ====
section
/-! DEFINITION. The operand forms that are more than a register or an immediate as extracted: the address I + k (44 R113), the key index (45 R122), the glyph address (46 R129), the decimal digits (46 R130). -/

namespace Sys2Proof.Machine

/-- zext_16(nnn) (30 R54). -/
def target (nnn : Addr12) : Word := nnn.setWidth 16

/-- The base I of a data access, an unbounded number (20 R36, 44 R113). -/
def dataAddress (s : State) : Nat := s.i.toNat

/-- Whether key v is down, by KeyIndex(v) under KEY_OOR (45 R122): the level of key v for v up to 15, else what the parameter says. -/
def keyDown (s : State) (v : Byte) : Except Cause Bool :=
  if v.toNat ≤ 15 then .ok (keyPressed s (v.setWidth 4))
  else
    match s.params.keyOor with
    | .fault => .error (.keyIndexOutOfRange v)
    | .notPressed => .ok false
    | .mask4 => .ok (keyPressed s (v.setWidth 4))

/-- zext_16(v) * 5: the address of glyph v (46 R129). -/
def glyphAddress (v : Byte) : Word := v.setWidth 16 * 5

/-- The decimal digits of v: hundreds, tens, ones (46 R130). -/
def bcdDigits (v : Byte) : List Byte := [v / 100, v / 10 % 10, v % 10]

end Sys2Proof.Machine
end

