-- ==== Sys2Proof/Machine/Flow.lean ====
section
/-! DEFINITION. Control flow, families 0x0 to 0x4 (41_flow.md). PC still holds the instruction's own address when a meaning runs. -/

namespace Sys2Proof.Machine

/-- RET (41 R80). -/
def execRet (s : State) : Host.Outcome State Fault Refusal :=
  if s.sp = 0 then raise (.stackUnderflow s.pc) s
  else .next (pop (setPc s (stackEntry s s.sp + 2)))

/-- JP NNN (41 R81). -/
def execJp (nnn : Addr12) (s : State) : Host.Outcome State Fault Refusal :=
  .next (setPc s (target nnn))

/-- CALL NNN (41 R82): the address of the CALL itself is pushed. -/
def execCall (nnn : Addr12) (s : State) : Host.Outcome State Fault Refusal :=
  if 15 ≤ s.sp.toNat then raise (.stackOverflow s.pc) s
  else .next (setPc (push s s.pc) (target nnn))

/-- SE Vx, KK (41 R83). -/
def execSe (x : Reg) (kk : Byte) (s : State) : Host.Outcome State Fault Refusal :=
  .next (skipIf (decide (getV s x = kk)) s)

/-- SNE Vx, KK (41 R84). -/
def execSne (x : Reg) (kk : Byte) (s : State) : Host.Outcome State Fault Refusal :=
  .next (skipIf (decide (getV s x ≠ kk)) s)

end Sys2Proof.Machine
end

