-- ==== Sys2Proof/Machine/Immediate.lean ====
section
/-! DEFINITION. Register-immediate instructions, families 0x6 and 0x7 (42_immediate.md). -/

namespace Sys2Proof.Machine

/-- LD Vx, KK (42 R90). -/
def execLdImm (x : Reg) (kk : Byte) (s : State) : Host.Outcome State Fault Refusal :=
  .next (advance (setV s x kk))

/-- ADD Vx, KK: wraps modulo 256, no flag (42 R91). -/
def execAddImm (x : Reg) (kk : Byte) (s : State) : Host.Outcome State Fault Refusal :=
  .next (advance (setV s x (getV s x + kk)))

end Sys2Proof.Machine
end

