-- ==== Sys2Proof/Machine/IndexDraw.lean ====
section
/-! DEFINITION. Index load, random, draw, families 0xA, 0xC, 0xD (44_index_random_draw.md). -/

namespace Sys2Proof.Machine

/-- LD I, NNN (44 R110). -/
def execLdI (nnn : Addr12) (s : State) : Host.Outcome State Fault Refusal :=
  .next (advance (setI s (target nnn)))

/-- RND Vx, KK (44 R111): the random byte is the step's own input (60 R161). -/
def execRnd (x : Reg) (kk : Byte) (s : State) : Host.Outcome State Fault Refusal :=
  .next (advance (setV s x ((inputs s).rnd &&& kk)))

/-- VF <- zext_8(collision) if DRAW_WRITES_VF, else VF unchanged (44 R112). -/
def collisionToVf (s : State) : State :=
  if s.params.drawWritesVf then setVf s (flagByte (inputs s).collision) else s

/-- DRW Vx, Vy, N (44 R112): the coordinates as they are, the bytes in address order. -/
def execDrw (x y : Reg) (n : BitVec 4) (s : State) : Host.Outcome State Fault Refusal :=
  match memRead s .read (dataAddress s) n.toNat with
  | .error c => raise c s
  | .ok rows =>
    .next (advance (collisionToVf (sendDraw s { x := getV s x, y := getV s y, rows := rows })))

end Sys2Proof.Machine
end

