-- ==== Sys2Proof/Machine/Keys.lean ====
section
/-! DEFINITION. Keyboard skips, family 0xE (45_keys.md). -/

namespace Sys2Proof.Machine

/-- SKP Vx (45 R120). -/
def execSkp (x : Reg) (s : State) : Host.Outcome State Fault Refusal :=
  complete s ((keyDown s (getV s x)).map fun down => skipIf down s)

/-- SKNP Vx (45 R121). -/
def execSknp (x : Reg) (s : State) : Host.Outcome State Fault Refusal :=
  complete s ((keyDown s (getV s x)).map fun down => skipIf (!down) s)

end Sys2Proof.Machine
end

