-- ==== Sys2Proof/Machine/TimersMemory.lean ====
section
/-! DEFINITION. Timer, font, BCD and register-load instructions, family 0xF (46_timers_memory.md). The tick of the step has already happened. -/

namespace Sys2Proof.Machine

/-- LD Vx, DT (46 R126). -/
def execLdVxDt (x : Reg) (s : State) : Host.Outcome State Fault Refusal :=
  .next (advance (setV s x s.dt))

/-- LD DT, Vx (46 R127). -/
def execLdDtVx (x : Reg) (s : State) : Host.Outcome State Fault Refusal :=
  .next (advance (setDt s (getV s x)))

/-- LD ST, Vx (46 R128). -/
def execLdStVx (x : Reg) (s : State) : Host.Outcome State Fault Refusal :=
  .next (advance (setSt s (getV s x)))

/-- LD F, Vx (46 R129): the whole 8-bit value is multiplied. -/
def execLdF (x : Reg) (s : State) : Host.Outcome State Fault Refusal :=
  .next (advance (setI s (glyphAddress (getV s x))))

/-- LD B, Vx (46 R130): three bytes or none. -/
def execLdB (x : Reg) (s : State) : Host.Outcome State Fault Refusal :=
  complete s ((memWrite s (dataAddress s) (bcdDigits (getV s x))).map advance)

/-- LD Vx, [I] (46 R131): V0 .. Vx or none; I unchanged. -/
def execLdRegs (x : Reg) (s : State) : Host.Outcome State Fault Refusal :=
  match memRead s .read (dataAddress s) (x.toNat + 1) with
  | .error c => raise c s
  | .ok bytes => .next (advance (setVs s 0 bytes))

end Sys2Proof.Machine
end

