-- ==== Sys2Proof/Machine/Cycle.lean ====
section
/-! DEFINITION. One pass of the engine's loop (40 R70): stop, fetch, tick, execute, and then the next step's inputs. -/

namespace Sys2Proof.Machine

/-- Decode the two bytes fetched and execute, the tick done (40 R74); an unsupported word raises (60 R143). -/
def decodeAndExecute (hi lo : Byte) (s : State) : Host.Outcome State Fault Refusal :=
  match decode hi lo with
  | .ok i => exec i s
  | .error (.unsupportedWord w) => raise (.unsupportedInstruction w) s

/-- The pass of the loop in a running machine, in the order of 40 R70: the stop input first (40 R71), then the fetch (40 R72), the tick (40 R73), the instruction (40 R74). -/
def pass (s : State) : Host.Outcome State Fault Refusal :=
  if (inputs s).stop then stopRun s
  else
    match fetch s with
    | .error c => raise c s
    | .ok (hi, lo) => decodeAndExecute hi lo (tick s)

/-- One step (40 R70): none is possible unless STATUS is Running (40 R78). -/
def cycle (s : State) : Host.Outcome State Fault Refusal :=
  match s.status with
  | .running => onNext endStep (pass s)
  | .stopped => .fault .runStopped
  | .faulted c => .fault (.runFaulted c)

end Sys2Proof.Machine
end

