-- ==== Sys2Proof/Machine/Step.lean ====
section
/-! DEFINITION. The step, and the placing of a word where the step fetches (log 19). -/

namespace Sys2Proof.Machine

/-- One step of the machine (40 R70). -/
def step (s : State) : Host.Outcome State Fault Refusal := cycle s

/-- s with the instruction whose bits are w, numbered as opcode_table.json numbers them, at PC (log 19). -/
def State.withFetchWord (s : State) (nbits w : Nat) : State := placeWord s (tableWord nbits w)

end Sys2Proof.Machine
end

