-- ==== Sys2Proof/Machine/Boot.lean ====
section
/-! DEFINITION. What happens outside the steps: the reset applied to a machine (70 R170 to R174), the loader (70 R175), and the launch state (70 R176), for any FONT, MEM_INIT and ROM. -/

namespace Sys2Proof.Machine

/-- Reset applied to s, with the font table of the machine: CORE's state as 70 R171 says, FONT written from address 0 (70 R172), the rest of memory as it was (70 R174). The inputs to come are the environment's and stay; the record of the display port starts anew (log 20). -/
def applyReset (font : List Byte) (s : State) : State :=
  { State.resetWith s.params with
    mem := writeBytes s.mem 0 font
    env := s.env
    draws := s.draws }

/-- The loader: MEM[0x200 + k] <- ROM[k] for every k (70 R175). -/
def loadRom (rom : List Byte) (s : State) : State :=
  { s with mem := writeBytes s.mem 0x200 rom }

/-- The memory the environment provides: MEM[a] = MEM_INIT(a) for every a < size (70 R174, R175). -/
def provideMemory (memInit : Nat → Byte) : Nat → Memory
  | 0 => []
  | n + 1 => writeByte (provideMemory memInit n) n (memInit n)

/-- The launch state: memory provided, reset, program loaded, in the order of 70 R175 (70 R176). -/
def launch (p : Params) (memInit : Nat → Byte) (font rom : List Byte) : State :=
  loadRom rom (applyReset font
    { State.resetWith p with mem := provideMemory memInit p.memSize })

end Sys2Proof.Machine
end

