-- ==== Sys2Proof/Safety.lean ====
section
/-! DEFINITION. The terms claims are stated in: a state that is ready to execute, the invariant of 10 R27, and what an instruction leaves unchanged. -/

namespace Sys2Proof.Machine

/-- The next step gets past the stop check and the fetch (40 R70 to R72): STATUS is Running, stop is not asserted, both bytes of the word are in memory. -/
abbrev Ready (s : State) : Prop :=
  s.status = .running ∧ (inputs s).stop = false ∧ s.pc.toNat + 2 ≤ s.params.memSize

/-- Every word W with (W AND mask) = bits decodes to f W: an instruction's encoding and operand fields (30 R52, R56). -/
def DecodesAs (mask bits : Word) (f : Word → Instr) : Prop :=
  ∀ w : Word, w &&& mask = bits → decodeWord w = some (f w)

/-- The n bytes of a data access at I are in memory (20 R31, R36); no byte always is (20 R33). -/
abbrev DataInRange (s : State) (n : Nat) : Prop := n = 0 ∨ s.i.toNat + n ≤ s.params.memSize

/-- What holds in every reachable state (10 R27): the parameters are in range, memory is canonical and lists only valid addresses, I is at most 0x0FFF, SP at most 15, entry 0 of the stack is zero, and every entry is zero or the address of a word in memory (a CALL was executed there). -/
structure Inv (s : State) : Prop where
  params : s.params.Ok
  memWf : Memory.wf s.mem
  memValid : ∀ c ∈ s.mem, c.1 < s.params.memSize
  index : s.i.toNat ≤ 0x0FFF
  sp : s.sp.toNat ≤ 15
  entryZero : s.stack[0] = 0
  entries : ∀ k : Fin 16, s.stack[k] = 0 ∨ s.stack[k].toNat + 2 ≤ s.params.memSize

/-- What an instruction that completes may write, PC apart. -/
structure Writes where
  /-- The general registers. -/
  regs : List Reg := []
  /-- I. -/
  index : Bool := false
  /-- SP and STACK. -/
  stack : Bool := false
  /-- DT. -/
  dt : Bool := false
  /-- ST. -/
  st : Bool := false
  /-- The bytes of memory: first address and number. -/
  bytes : Nat × Nat := (0, 0)
  /-- A command on the display port. -/
  display : Bool := false

/-- Everything but PC and what w names is as it was; STATUS, the parameters and the environment's inputs are never written by an instruction that completes. -/
structure Frame (w : Writes) (s t : State) : Prop where
  regs : ∀ r, r ∉ w.regs → getV t r = getV s r
  index : w.index = false → t.i = s.i
  stack : w.stack = false → t.sp = s.sp ∧ t.stack = s.stack
  dt : w.dt = false → t.dt = s.dt
  st : w.st = false → t.st = s.st
  mem : ∀ a, a < w.bytes.1 ∨ w.bytes.1 + w.bytes.2 ≤ a → readByte t.mem a = readByte s.mem a
  display : w.display = false → t.display = s.display
  status : t.status = s.status
  params : t.params = s.params
  env : t.env = s.env
  draws : t.draws = s.draws

end Sys2Proof.Machine
end

