-- ==== Sys2Proof/Certificates/Slice0/Obligations.lean ====
section
/-! DEFINITION. The statements for the provers. Each docstring names the rule of spec/ it formalises; a clause that rests on a decision the spec marks as its own (D<n> of 92_eei_decisions.md) or on a choice of the model (log n) says so. -/

open Sys2Proof Sys2Proof.Machine

/-! ## Encoding and decoding -/

/-- 30 R52, R55, R56: decoding the word of any instruction gives that instruction, every operand at every value. The ignored fields are encoded as 30 R61 says (decision D17, log 21). -/
def Obligations.DecodeEncodeRoundTrip : Prop :=
  ∀ i : Instr, decodeWord (encode i) = some i

/-- 30 R58: a decoded word and the word of its instruction agree on every bit the instruction does not ignore. -/
def Obligations.DecodedWordReencodes : Prop :=
  ∀ (w : Word) (i : Instr), decodeWord w = some i →
    encode i &&& i.usedBits = w &&& i.usedBits

/-- 30 R56: W is a row's instruction exactly when (W AND mask) = match, and no two rows overlap. -/
def Obligations.RowsAreMaskAndMatch : Prop :=
  (∀ (w : Word) (r : OpcodeRow),
    (∃ i, decodeWord w = some i ∧ i.row = r) ↔ r ∈ opcodeTable ∧ w &&& r.mask = r.bits) ∧
  ∀ r ∈ opcodeTable, ∀ q ∈ opcodeTable, ∀ w : Word,
    w &&& r.mask = r.bits → w &&& q.mask = q.bits → r = q

/-- 30 R57: the unsupported words, as the rule lists them. -/
def Obligations.UnsupportedWordsAreListed : Prop :=
  ∀ w : Word, decodeWord w = none ↔
    opField w = 0x5 ∨ opField w = 0x9 ∨ opField w = 0xB ∨
    (opField w = 0x8 ∧ 0x7 ≤ (nField w).toNat) ∨
    (opField w = 0xE ∧ kkField w ≠ 0x9E ∧ kkField w ≠ 0xA1) ∨
    (opField w = 0xF ∧ kkField w ≠ 0x07 ∧ kkField w ≠ 0x15 ∧ kkField w ≠ 0x18 ∧
      kkField w ≠ 0x29 ∧ kkField w ≠ 0x33 ∧ kkField w ≠ 0x65)

/-- 30 R51: W = hi : lo with hi = MEM[PC] and lo = MEM[PC+1]. The fetch hands over these two bytes, high first; the decoder reads W from them, and reports W where it is unsupported; bit 15 of W is bit 7 of hi, bit 0 of W is bit 0 of lo, and in between as the concatenation says. wordAtPc, in which other statements name the word of a step, is the W of the bytes fetched. -/
def Obligations.WordIsHighThenLow : Prop :=
  (∀ s : State, s.pc.toNat + 2 ≤ s.params.memSize →
    fetch s = .ok (readByte s.mem s.pc.toNat, readByte s.mem (s.pc.toNat + 1))) ∧
  (∀ (s : State) (hi lo : Byte), fetch s = .ok (hi, lo) → wordAtPc s = wordOf hi lo) ∧
  (∀ (hi lo : Byte) (i : Instr), decode hi lo = .ok i ↔ decodeWord (wordOf hi lo) = some i) ∧
  (∀ (hi lo : Byte) (w : Word), decode hi lo = .error (.unsupportedWord w) ↔
    decodeWord (wordOf hi lo) = none ∧ w = wordOf hi lo) ∧
  ∀ (hi lo : Byte) (k : Nat),
    (wordOf hi lo).getLsbD k = if k < 8 then lo.getLsbD k else hi.getLsbD (k - 8)

/-- 95 section 2.2, vectors E1 to E17: the decoder's own examples, eight words that decode (E1 to E7, E17) and nine that are unsupported (E8 to E16). -/
def Obligations.DecoderVectors : Prop :=
  decodeWord 0x8015 = some (.sub 0x0 0x1) ∧ decodeWord 0xD123 = some (.drw 0x1 0x2 0x3) ∧
  decodeWord 0xFA65 = some (.ldRegs 0xA) ∧ decodeWord 0x0000 = some .ret ∧
  decodeWord 0x00E0 = some .ret ∧ decodeWord 0x0ABC = some .ret ∧
  decodeWord 0x80F6 = some (.shr 0x0) ∧ decodeWord 0x8017 = none ∧
  decodeWord 0x801E = none ∧ decodeWord 0x5120 = none ∧ decodeWord 0x9120 = none ∧
  decodeWord 0xB300 = none ∧ decodeWord 0xE09D = none ∧ decodeWord 0xF00A = none ∧
  decodeWord 0xF11E = none ∧ decodeWord 0xF255 = none ∧ decodeWord 0xFF65 = some (.ldRegs 0xF)

/-! ## The step -/

/-- 40 R70, R74: a ready machine whose two bytes at PC decode to i runs i after the tick, and then the step's inputs are used up (endStep, log 7). -/
def Obligations.StepRunsDecodedInstruction : Prop :=
  ∀ (s : State) (i : Instr), Ready s →
    decode (readByte s.mem s.pc.toNat) (readByte s.mem (s.pc.toNat + 1)) = .ok i →
    step s = onNext endStep (exec i (tick s))

/-- 40 R71 (decision D12): an asserted stop input sets STATUS to Stopped and does nothing else, whatever else of the step would have faulted (60 R150). -/
def Obligations.StopInputStopsTheRun : Prop :=
  ∀ s : State, s.status = .running → (inputs s).stop = true →
    step s = .next (endStep { s with status := .stopped })

/-- 40 R72, 60 R146 (decisions D7, D8): a fetch out of range faults with the lowest offending address, before the tick. -/
def Obligations.FetchOutOfRangeFaults : Prop :=
  ∀ s : State, s.status = .running → (inputs s).stop = false →
    s.params.memSize < s.pc.toNat + 2 →
    step s = .next (endStep { s with status := .faulted (.memoryOutOfRange .fetch
      (if s.params.memSize ≤ s.pc.toNat then s.pc.toNat else s.pc.toNat + 1)) })

/-- 60 R143 (decision D14): an unsupported word faults with W recorded; the timers have ticked, PC has not moved, nothing else has changed. -/
def Obligations.UnsupportedWordFaults : Prop :=
  ∀ s : State, Ready s → decodeWord (wordAtPc s) = none →
    step s = .next (endStep { tick s with
      status := .faulted (.unsupportedInstruction (wordAtPc s)) })

/-- 40 R78, 60 R151 (decision D13): from a terminal STATUS no step is possible; the model answers the fault of that name (log 10). -/
def Obligations.TerminalStatusHasNoStep : Prop :=
  ∀ s : State, (s.status = .stopped → step s = .fault .runStopped) ∧
    ∀ c, s.status = .faulted c → step s = .fault (.runFaulted c)

/-- 40 R78, R79: a running machine always has a next state. No instruction is refused; the step takes one set of inputs (log 7) and keeps the parameters (log 5). -/
def Obligations.RunningMachineAlwaysSteps : Prop :=
  ∀ s : State, s.status = .running →
    ∃ t, step s = .next t ∧ t.env = s.env.tail ∧ t.draws = s.draws + 1 ∧ t.params = s.params

/-- 40 R73, 60 R155 (decision D11): in every step past the fetch each timer goes down by one and stops at zero, whatever the word is, unless the instruction writes it. -/
def Obligations.TimersTickInEveryStep : Prop :=
  ∀ s t : State, Ready s → step s = .next t →
    ((∀ x, decodeWord (wordAtPc s) ≠ some (.ldDtVx x)) → t.dt.toNat = s.dt.toNat - 1) ∧
    ((∀ x, decodeWord (wordAtPc s) ≠ some (.ldStVx x)) → t.st.toNat = s.st.toNat - 1)

/-! ## Control flow -/

/-- 41 R81: JP sets PC to zext_16(nnn) and writes nothing else; it cannot fault. -/
def Obligations.JpSetsPc : Prop :=
  DecodesAs 0xF000 0x1000 (fun w => .jp (nnnField w)) ∧
  ∀ (nnn : Addr12) (s : State), ∃ t, exec (.jp nnn) s = .next t ∧
    t.pc.toNat = nnn.toNat ∧ Frame {} s t

/-- 41 R82: below 15 outstanding calls, CALL increments SP, writes its own address at the new SP and jumps. -/
def Obligations.CallPushesItsOwnAddress : Prop :=
  ∀ (nnn : Addr12) (s : State), s.sp.toNat < 15 → ∃ t, exec (.call nnn) s = .next t ∧
    t.sp.toNat = s.sp.toNat + 1 ∧ t.pc.toNat = nnn.toNat ∧
    (∀ k : Fin 16, t.stack[k] = if k.val = s.sp.toNat + 1 then s.pc else s.stack[k]) ∧
    Frame { stack := true } s t

/-- 41 R80: with SP not 0, RET decrements SP, keeps every entry, and sets PC to STACK[SP] + 2 modulo 2^16. Above 15 there is no entry and PC is a free value (log 13). -/
def Obligations.RetPopsAndAddsTwo : Prop :=
  ∀ s : State, s.sp ≠ 0 → ∃ t, exec .ret s = .next t ∧
    t.sp.toNat + 1 = s.sp.toNat ∧ t.stack = s.stack ∧
    (∀ h : s.sp.toNat < 16, t.pc = s.stack[s.sp.toNat] + 2) ∧
    Frame { stack := true } s t

/-- 60 R144, R145 (decision D6): CALL at SP 15 or more and RET at SP 0 fault with PC recorded and change nothing else. -/
def Obligations.StackLimitsFault : Prop :=
  (∀ (nnn : Addr12) (s : State), 15 ≤ s.sp.toNat →
    exec (.call nnn) s = .next { s with status := .faulted (.stackOverflow s.pc) }) ∧
  ∀ s : State, s.sp = 0 →
    exec .ret s = .next { s with status := .faulted (.stackUnderflow s.pc) }

/-- 41 R83, R84: SE skips exactly when Vx = kk, SNE exactly when Vx != kk; nothing but PC is written. -/
def Obligations.SkipsCompareWithImmediate : Prop :=
  DecodesAs 0xF000 0x3000 (fun w => .se (xField w) (kkField w)) ∧
  DecodesAs 0xF000 0x4000 (fun w => .sne (xField w) (kkField w)) ∧
  ∀ (x : Reg) (kk : Byte) (s : State),
    (∃ t, exec (.se x kk) s = .next t ∧
      t.pc = (if getV s x = kk then s.pc + 4 else s.pc + 2) ∧ Frame {} s t) ∧
    ∃ t, exec (.sne x kk) s = .next t ∧
      t.pc = (if getV s x = kk then s.pc + 2 else s.pc + 4) ∧ Frame {} s t

/-- 41 R85: a CALL followed at its target by a RET comes back behind the CALL in two steps, with SP as it was, the address of the CALL left in STACK[SP+1], and only the timers otherwise changed. -/
def Obligations.CallThenRetRoundTrip : Prop :=
  ∀ (s : State) (nnn : Addr12), Ready s → decodeWord (wordAtPc s) = some (.call nnn) →
    s.sp.toNat < 15 → (inputs (endStep s)).stop = false →
    nnn.toNat + 2 ≤ s.params.memSize →
    decodeWord (wordOf (readByte s.mem nnn.toNat) (readByte s.mem (nnn.toNat + 1))) = some .ret →
    ∃ t, Host.Core.run core 2 s = .next t ∧ t.pc = s.pc + 2 ∧ t.sp = s.sp ∧
      (∀ k : Fin 16, t.stack[k] = if k.val = s.sp.toNat + 1 then s.pc else s.stack[k]) ∧
      t.v = s.v ∧ t.i = s.i ∧ t.mem = s.mem ∧ t.display = s.display ∧ t.status = s.status ∧
      t.dt.toNat = s.dt.toNat - 2 ∧ t.st.toNat = s.st.toNat - 2

/-- 40 R75: the instructions that neither skip nor transfer control advance PC by exactly 2, modulo 2^16, when they complete. -/
def Obligations.OtherInstructionsAdvanceByTwo : Prop :=
  ∀ (i : Instr) (s t : State), s.status = .running → exec i s = .next t →
    t.status = .running →
    (i ≠ .ret ∧ (∀ a, i ≠ .jp a) ∧ (∀ a, i ≠ .call a) ∧ (∀ x k, i ≠ .se x k) ∧
      (∀ x k, i ≠ .sne x k) ∧ (∀ x, i ≠ .skp x) ∧ ∀ x, i ≠ .sknp x) →
    t.pc.toNat = (s.pc.toNat + 2) % 2 ^ 16

/-! ## Immediate and register-register instructions -/

/-- 42 R90: LD Vx, KK. With x = 15 the destination is VF; no other register is written. -/
def Obligations.LdImmWritesKk : Prop :=
  DecodesAs 0xF000 0x6000 (fun w => .ldImm (xField w) (kkField w)) ∧
  ∀ (x : Reg) (kk : Byte) (s : State), ∃ t, exec (.ldImm x kk) s = .next t ∧
    getV t x = kk ∧ t.pc = s.pc + 2 ∧ Frame { regs := [x] } s t

/-- 42 R91: ADD Vx, KK wraps modulo 256 and writes no flag: VF changes only as the destination. -/
def Obligations.AddImmWrapsWithoutFlag : Prop :=
  DecodesAs 0xF000 0x7000 (fun w => .addImm (xField w) (kkField w)) ∧
  ∀ (x : Reg) (kk : Byte) (s : State), ∃ t, exec (.addImm x kk) s = .next t ∧
    (getV t x).toNat = ((getV s x).toNat + kk.toNat) % 256 ∧ t.pc = s.pc + 2 ∧
    Frame { regs := [x] } s t

/-- 43 R96: LD Vx, Vy. -/
def Obligations.LdRegCopiesVy : Prop :=
  DecodesAs 0xF00F 0x8000 (fun w => .ldReg (xField w) (yField w)) ∧
  ∀ (x y : Reg) (s : State), ∃ t, exec (.ldReg x y) s = .next t ∧
    getV t x = getV s y ∧ t.pc = s.pc + 2 ∧ Frame { regs := [x] } s t

/-- 43 R97 to R99: OR, AND, XOR bit by bit; that VF is untouched unless it is the destination rests on decision D2. -/
def Obligations.BitwiseInstructionsActBitByBit : Prop :=
  ∀ (x y : Reg) (s : State),
    (∃ t, exec (.or x y) s = .next t ∧ t.pc = s.pc + 2 ∧ Frame { regs := [x] } s t ∧
      ∀ k, (getV t x).getLsbD k = ((getV s x).getLsbD k || (getV s y).getLsbD k)) ∧
    (∃ t, exec (.and x y) s = .next t ∧ t.pc = s.pc + 2 ∧ Frame { regs := [x] } s t ∧
      ∀ k, (getV t x).getLsbD k = ((getV s x).getLsbD k && (getV s y).getLsbD k)) ∧
    ∃ t, exec (.xor x y) s = .next t ∧ t.pc = s.pc + 2 ∧ Frame { regs := [x] } s t ∧
      ∀ k, (getV t x).getLsbD k = ((getV s x).getLsbD k ^^ (getV s y).getLsbD k)

/-- 43 R100: ADD Vx, Vy. Both operands are read before either write; VF is 1 exactly when the sum exceeds 255; with x = 15 the sum is written last and the carry is lost. -/
def Obligations.AddSetsCarry : Prop :=
  DecodesAs 0xF00F 0x8004 (fun w => .add (xField w) (yField w)) ∧
  ∀ (x y : Reg) (s : State), ∃ t, exec (.add x y) s = .next t ∧
    (getV t x).toNat = ((getV s x).toNat + (getV s y).toNat) % 256 ∧
    (x ≠ Reg.vf → getV t Reg.vf =
      if 255 < (getV s x).toNat + (getV s y).toNat then 0x01 else 0x00) ∧
    t.pc = s.pc + 2 ∧ Frame { regs := [x, Reg.vf] } s t

/-- 43 R101: SUB Vx, Vy where neither is VF: VF is 1 exactly when Vx > Vy, unsigned and strict, and the difference wraps. -/
def Obligations.SubSetsStrictlyGreater : Prop :=
  DecodesAs 0xF00F 0x8005 (fun w => .sub (xField w) (yField w)) ∧
  ∀ (x y : Reg) (s : State), x ≠ Reg.vf → y ≠ Reg.vf → ∃ t, exec (.sub x y) s = .next t ∧
    (getV t x).toNat = (256 + (getV s x).toNat - (getV s y).toNat) % 256 ∧
    getV t Reg.vf = (if (getV s y).toNat < (getV s x).toNat then 0x01 else 0x00) ∧
    t.pc = s.pc + 2 ∧ Frame { regs := [x, Reg.vf] } s t

/-- 43 R102: SHR Vx where x is not VF: VF is the bit shifted out, Vx is halved, rounding down. -/
def Obligations.ShrHalvesAndKeepsTheBit : Prop :=
  DecodesAs 0xF00F 0x8006 (fun w => .shr (xField w)) ∧
  ∀ (x : Reg) (s : State), x ≠ Reg.vf → ∃ t, exec (.shr x) s = .next t ∧
    (getV t x).toNat = (getV s x).toNat / 2 ∧
    (getV t Reg.vf).toNat = (getV s x).toNat % 2 ∧
    t.pc = s.pc + 2 ∧ Frame { regs := [x, Reg.vf] } s t

/-- 43 R103's table (decision D4, log 2): SUB and SHR with VF as an operand, under both values of ALIAS_ORDER. Rows: 8XY5 with x = 15 only, with y = 15 only, with both, and 8XY6 with x = 15. -/
def Obligations.VfOperandTable : Prop :=
  (∀ (y : Reg) (s : State), y ≠ Reg.vf → ∃ t, exec (.sub Reg.vf y) s = .next t ∧
    getV t Reg.vf = (match s.params.aliasOrder with
      | .sequential =>
        (if (getV s y).toNat < (getV s Reg.vf).toNat then 0x01 else 0x00) - getV s y
      | .latched => getV s Reg.vf - getV s y) ∧
    t.pc = s.pc + 2 ∧ Frame { regs := [Reg.vf] } s t) ∧
  (∀ (x : Reg) (s : State), x ≠ Reg.vf → ∃ t, exec (.sub x Reg.vf) s = .next t ∧
    getV t Reg.vf = (if (getV s Reg.vf).toNat < (getV s x).toNat then 0x01 else 0x00) ∧
    getV t x = (match s.params.aliasOrder with
      | .sequential => getV s x - getV t Reg.vf
      | .latched => getV s x - getV s Reg.vf) ∧
    t.pc = s.pc + 2 ∧ Frame { regs := [x, Reg.vf] } s t) ∧
  (∀ s : State, ∃ t, exec (.sub Reg.vf Reg.vf) s = .next t ∧ getV t Reg.vf = 0x00 ∧
    t.pc = s.pc + 2 ∧ Frame { regs := [Reg.vf] } s t) ∧
  ∀ s : State, ∃ t, exec (.shr Reg.vf) s = .next t ∧
    (getV t Reg.vf).toNat = (match s.params.aliasOrder with
      | .sequential => 0
      | .latched => (getV s Reg.vf).toNat / 2) ∧
    t.pc = s.pc + 2 ∧ Frame { regs := [Reg.vf] } s t

/-! ## Index, random, draw -/

/-- 44 R110: LD I, NNN. -/
def Obligations.LdISetsIndex : Prop :=
  DecodesAs 0xF000 0xA000 (fun w => .ldI (nnnField w)) ∧
  ∀ (nnn : Addr12) (s : State), ∃ t, exec (.ldI nnn) s = .next t ∧
    t.i.toNat = nnn.toNat ∧ t.pc = s.pc + 2 ∧ Frame { index := true } s t

/-- 44 R111 (decision D10, log 7): RND writes the step's random byte AND kk, for every random byte, so the result is at most kk. -/
def Obligations.RndMasksTheRandomByte : Prop :=
  ∀ (x : Reg) (kk : Byte) (s : State), ∃ t, exec (.rnd x kk) s = .next t ∧
    getV t x = (inputs s).rnd &&& kk ∧ (getV t x).toNat ≤ kk.toNat ∧
    t.pc = s.pc + 2 ∧ Frame { regs := [x] } s t

/-- 44 R112 (decisions D5, D19, D20): DRW sends one command with the registers as they are and the n bytes at I in address order; VF is written only under DRAW_WRITES_VF, with the collision bit. -/
def Obligations.DrwSendsOneCommand : Prop :=
  ∀ (x y : Reg) (n : BitVec 4) (s : State), DataInRange s n.toNat →
    ∃ t rows, exec (.drw x y n) s = .next t ∧
      t.display = s.display ++ [{ x := getV s x, y := getV s y, rows := rows }] ∧
      rows.length = n.toNat ∧
      (∀ k, k < n.toNat → rows[k]? = some (readByte s.mem (s.i.toNat + k))) ∧
      getV t Reg.vf = (if s.params.drawWritesVf then
        (if (inputs s).collision then 0x01 else 0x00) else getV s Reg.vf) ∧
      t.pc = s.pc + 2 ∧ Frame { regs := [Reg.vf], display := true } s t

/-- 60 R146 (decisions D7, D8): DRW, LD B and LD Vx, [I] with a byte of their access out of range fault with the kind and the lowest offending address, and have no effect. -/
def Obligations.DataAccessOutOfRangeFaults : Prop :=
  ∀ (x y : Reg) (n : BitVec 4) (s : State),
    let a := if s.params.memSize ≤ s.i.toNat then s.i.toNat else s.params.memSize
    (¬ DataInRange s n.toNat → exec (.drw x y n) s =
      .next { s with status := .faulted (.memoryOutOfRange .read a) }) ∧
    (¬ DataInRange s 3 → exec (.ldB x) s =
      .next { s with status := .faulted (.memoryOutOfRange .write a) }) ∧
    (¬ DataInRange s (x.toNat + 1) → exec (.ldRegs x) s =
      .next { s with status := .faulted (.memoryOutOfRange .read a) })

/-! ## Keys -/

/-- 45 R120, R121: for a key identifier 0 to 15, SKP skips exactly when the key's level is pressed and SKNP exactly when it is not. -/
def Obligations.KeySkipsFollowTheKey : Prop :=
  ∀ (x : Reg) (s : State), (getV s x).toNat ≤ 15 →
    (∃ t, exec (.skp x) s = .next t ∧
      t.pc = (if (inputs s).keys.getLsbD (getV s x).toNat then s.pc + 4 else s.pc + 2) ∧
      Frame {} s t) ∧
    ∃ t, exec (.sknp x) s = .next t ∧
      t.pc = (if (inputs s).keys.getLsbD (getV s x).toNat then s.pc + 2 else s.pc + 4) ∧
      Frame {} s t

/-- 45 R122, 60 R148 (decision D9, log 4): a key identifier above 15 under each value of KEY_OOR. -/
def Obligations.KeyIdentifierAboveFifteen : Prop :=
  ∀ (x : Reg) (s : State), 15 < (getV s x).toNat →
    (s.params.keyOor = .fault →
      exec (.skp x) s = .next { s with status := .faulted (.keyIndexOutOfRange (getV s x)) } ∧
      exec (.sknp x) s =
        .next { s with status := .faulted (.keyIndexOutOfRange (getV s x)) }) ∧
    (s.params.keyOor = .notPressed →
      exec (.skp x) s = .next { s with pc := s.pc + 2 } ∧
      exec (.sknp x) s = .next { s with pc := s.pc + 4 }) ∧
    (s.params.keyOor = .mask4 →
      exec (.skp x) s = .next { s with pc := (if (inputs s).keys.getLsbD
        ((getV s x).toNat % 16) then s.pc + 4 else s.pc + 2) } ∧
      exec (.sknp x) s = .next { s with pc := (if (inputs s).keys.getLsbD
        ((getV s x).toNat % 16) then s.pc + 2 else s.pc + 4) })

/-! ## Timers, font, BCD, register load -/

/-- 46 R126: LD Vx, DT gives DT as the tick left it; at the step, one less than DT was, or 0. -/
def Obligations.LdVxDtReadsTheTickedTimer : Prop :=
  DecodesAs 0xF0FF 0xF007 (fun w => .ldVxDt (xField w)) ∧
  (∀ (x : Reg) (s : State), ∃ t, exec (.ldVxDt x) s = .next t ∧
    getV t x = s.dt ∧ t.pc = s.pc + 2 ∧ Frame { regs := [x] } s t) ∧
  ∀ (x : Reg) (s : State), Ready s → decodeWord (wordAtPc s) = some (.ldVxDt x) →
    ∃ t, step s = .next t ∧ (getV t x).toNat = s.dt.toNat - 1 ∧ t.dt.toNat = s.dt.toNat - 1

/-- 46 R127, R128: LD DT, Vx and LD ST, Vx write the timer with Vx, and the step's own tick does not touch what they wrote. -/
def Obligations.TimerLoadsWriteVx : Prop :=
  DecodesAs 0xF0FF 0xF015 (fun w => .ldDtVx (xField w)) ∧
  DecodesAs 0xF0FF 0xF018 (fun w => .ldStVx (xField w)) ∧
  ∀ (x : Reg) (s : State),
    (∃ t, exec (.ldDtVx x) s = .next t ∧ t.dt = getV s x ∧ t.pc = s.pc + 2 ∧
      Frame { dt := true } s t) ∧
    (∃ t, exec (.ldStVx x) s = .next t ∧ t.st = getV s x ∧ t.pc = s.pc + 2 ∧
      Frame { st := true } s t) ∧
    (Ready s → decodeWord (wordAtPc s) = some (.ldDtVx x) →
      ∃ t, step s = .next t ∧ t.dt = getV s x) ∧
    (Ready s → decodeWord (wordAtPc s) = some (.ldStVx x) →
      ∃ t, step s = .next t ∧ t.st = getV s x)

/-- 46 R129: LD F, Vx sets I to Vx * 5 with the full 8-bit value. -/
def Obligations.LdFMultipliesByFive : Prop :=
  DecodesAs 0xF0FF 0xF029 (fun w => .ldF (xField w)) ∧
  ∀ (x : Reg) (s : State), ∃ t, exec (.ldF x) s = .next t ∧
    t.i.toNat = (getV s x).toNat * 5 ∧ t.pc = s.pc + 2 ∧ Frame { index := true } s t

/-- 46 R130: LD B, Vx stores the hundreds, tens and ones of Vx at I, I+1, I+2, each a byte 0 to 9, and changes no other byte. What it does out of range is DataAccessOutOfRangeFaults (decision D8). -/
def Obligations.LdBStoresDecimalDigits : Prop :=
  ∀ (x : Reg) (s : State), s.i.toNat + 3 ≤ s.params.memSize →
    ∃ t, exec (.ldB x) s = .next t ∧
      (readByte t.mem s.i.toNat).toNat = (getV s x).toNat / 100 ∧
      (readByte t.mem (s.i.toNat + 1)).toNat = (getV s x).toNat / 10 % 10 ∧
      (readByte t.mem (s.i.toNat + 2)).toNat = (getV s x).toNat % 10 ∧
      t.pc = s.pc + 2 ∧ Frame { bytes := (dataAddress s, 3) } s t

/-- 46 R131: LD Vx, [I] loads V0 .. Vx, inclusive, from I on; the registers above x, I and memory are unchanged (I by decision D2). -/
def Obligations.LdRegsLoadsInclusiveRange : Prop :=
  ∀ (x : Reg) (s : State), s.i.toNat + x.toNat + 1 ≤ s.params.memSize →
    ∃ t, exec (.ldRegs x) s = .next t ∧
      (∀ r : Reg, getV t r =
        if r.toNat ≤ x.toNat then readByte s.mem (s.i.toNat + r.toNat) else getV s r) ∧
      t.pc = s.pc + 2 ∧
      Frame { regs := (List.range (x.toNat + 1)).map (BitVec.ofNat 4) } s t

/-! ## Memory -/

/-- 20 R39: a write stores its byte and has no other effect; a read after it gives the byte, and a read of any other address what it gave before. -/
def Obligations.ReadAfterWrite : Prop :=
  ∀ (m : Memory) (a c : Nat) (b : Byte),
    readByte (writeByte m a b) c = if c = a then b else readByte m c

/-- 20 R45: the bytes LD B stores are seen by the very next fetch that covers their addresses. -/
def Obligations.FetchSeesStoredBytes : Prop :=
  ∀ (x : Reg) (s t : State), Ready s → decodeWord (wordAtPc s) = some (.ldB x) →
    s.i.toNat + 3 ≤ s.params.memSize → step s = .next t →
    t.pc.toNat + 2 ≤ s.params.memSize →
    fetch t = .ok (readByte t.mem t.pc.toNat, readByte t.mem (t.pc.toNat + 1)) ∧
    ∀ a, readByte t.mem a =
      if s.i.toNat ≤ a ∧ a < s.i.toNat + 3 then
        (bcdDigits (getV s x)).getD (a - s.i.toNat) 0
      else readByte s.mem a

/-! ## Faults -/

/-- 60 R141, R147 (decisions D8, D14): an instruction that faults has no effect but STATUS. -/
def Obligations.FaultsHaveNoOtherEffect : Prop :=
  ∀ (i : Instr) (s t : State) (c : Cause), s.status = .running → exec i s = .next t →
    t.status = .faulted c → t = { s with status := .faulted c }

/-- 60 R142, R150 (decisions D18, D26): which fault each instruction can raise and what it records; every other instruction raises none. -/
def Obligations.FaultsRaisedByEachInstruction : Prop :=
  ∀ (i : Instr) (s t : State) (c : Cause), s.status = .running → exec i s = .next t →
    t.status = .faulted c →
    match i with
    | .ret => c = .stackUnderflow s.pc
    | .call _ => c = .stackOverflow s.pc
    | .drw _ _ _ => ∃ a, c = .memoryOutOfRange .read a ∧ s.params.memSize ≤ a
    | .ldB _ => ∃ a, c = .memoryOutOfRange .write a ∧ s.params.memSize ≤ a
    | .ldRegs _ => ∃ a, c = .memoryOutOfRange .read a ∧ s.params.memSize ≤ a
    | .skp x => c = .keyIndexOutOfRange (getV s x)
    | .sknp x => c = .keyIndexOutOfRange (getV s x)
    | _ => False

/-! ## Whole-machine rules -/

/-- 20 R32: a step changes memory only if its instruction is LD B. -/
def Obligations.OnlyLdBWritesMemory : Prop :=
  ∀ s t : State, step s = .next t → (∀ x, decodeWord (wordAtPc s) ≠ some (.ldB x)) →
    ∀ a, readByte t.mem a = readByte s.mem a

/-- 10 R17, R18, R22, 60 R159 (decision D2): I is written only by LD I and LD F, SP only by CALL and RET, a stack entry only by CALL, and a display command is sent only by DRW. -/
def Obligations.WritersOfIndexStackAndDisplay : Prop :=
  ∀ (i : Instr) (s t : State), exec i s = .next t →
    ((∀ a, i ≠ .ldI a) → (∀ x, i ≠ .ldF x) → t.i = s.i) ∧
    ((∀ a, i ≠ .call a) → t.stack = s.stack ∧ (i ≠ .ret → t.sp = s.sp)) ∧
    ((∀ x y n, i ≠ .drw x y n) → t.display = s.display)

/-- 10 R12 (decisions D2, D5): VF is written only where it is the destination, by ADD, SUB and SHR, by LD VF, [I], and by DRW under DRAW_WRITES_VF. -/
def Obligations.WritersOfVf : Prop :=
  ∀ (i : Instr) (s t : State), exec i s = .next t → getV t Reg.vf ≠ getV s Reg.vf →
    (∃ k, i = .ldImm Reg.vf k) ∨ (∃ k, i = .addImm Reg.vf k) ∨ (∃ k, i = .rnd Reg.vf k) ∨
    (∃ y, i = .ldReg Reg.vf y) ∨ (∃ y, i = .or Reg.vf y) ∨ (∃ y, i = .and Reg.vf y) ∨
    (∃ y, i = .xor Reg.vf y) ∨ i = .ldVxDt Reg.vf ∨ i = .ldRegs Reg.vf ∨
    (∃ x y, i = .add x y) ∨ (∃ x y, i = .sub x y) ∨ (∃ x, i = .shr x) ∨
    ((∃ x y n, i = .drw x y n) ∧ s.params.drawWritesVf = true)

/-- 40 R79 (the read of a missing stack entry, log 13, set aside): keys are read only by SKP and SKNP, the random byte only by RND, the collision bit only by DRW under DRAW_WRITES_VF: every other instruction does the same whatever the inputs are. -/
def Obligations.InputsAreReadOnlyWhereListed : Prop :=
  ∀ (i : Instr) (s : State) (env : List Inputs) (draws : Nat),
    (∀ x, i ≠ .skp x) → (∀ x, i ≠ .sknp x) → (∀ x k, i ≠ .rnd x k) →
    (s.params.drawWritesVf = true → ∀ x y n, i ≠ .drw x y n) →
    (i = .ret → s.sp.toNat < 16) →
    exec i { s with env := env, draws := draws } =
      onNext (fun t => { t with env := env, draws := draws }) (exec i s)

/-- 10 R27: the invariant of the reachable states is kept by every step, from every state that meets it. -/
def Obligations.StepKeepsInvariant : Prop :=
  ∀ s t : State, Inv s → step s = .next t → Inv t

/-- 10 R27: the state after reset meets the invariant, for every MEM_SIZE of 00 R8. -/
def Obligations.ResetMeetsInvariant : Prop :=
  Inv State.reset ∧ ∀ p : Params, p.Ok → Inv (State.resetWith p)

/-- The canonical form of memory, the model's own (log 6), is kept by every step, in states no run reaches too. -/
def Obligations.StepKeepsMemoryCanonical : Prop :=
  ∀ s t : State, Memory.wf s.mem → step s = .next t → Memory.wf t.mem

/-- The canonical form is one per memory (the model's own choice, log 6): two canonical memories that read the same everywhere are the same data. -/
def Obligations.CanonicalMemoriesAreEqualData : Prop :=
  ∀ m n : Memory, Memory.wf m → Memory.wf n → (∀ a, readByte m a = readByte n a) → m = n

/-! ## Reset and launch -/

/-- 70 R171: reset sets every register, every stack entry, I, SP, DT and ST to zero, PC to 0x0200 and STATUS to Running. -/
def Obligations.ResetSetsEveryRegister : Prop :=
  (∀ r : Reg, getV State.reset r = 0x00) ∧ State.reset.i = 0x0000 ∧
  (∀ k : Fin 16, State.reset.stack[k] = 0x0000) ∧ State.reset.sp = 0x00 ∧
  State.reset.dt = 0x00 ∧ State.reset.st = 0x00 ∧ State.reset.pc = 0x0200 ∧
  State.reset.status = .running

/-- 70 R172, R174 with the defaults of FONT and MEM_INIT (decision D16, from general knowledge; log 6): the 80 bytes of 93 section 2, one row of the list per glyph, at 0 .. 79, and zero everywhere else. -/
def Obligations.ResetMemoryHoldsTheDefaults : Prop :=
  let glyphs : List (List Byte) :=
    [[0xF0, 0x90, 0x90, 0x90, 0xF0],
     [0x20, 0x60, 0x20, 0x20, 0x70],
     [0xF0, 0x10, 0xF0, 0x80, 0xF0],
     [0xF0, 0x10, 0xF0, 0x10, 0xF0],
     [0x90, 0x90, 0xF0, 0x10, 0x10],
     [0xF0, 0x80, 0xF0, 0x10, 0xF0],
     [0xF0, 0x80, 0xF0, 0x90, 0xF0],
     [0xF0, 0x10, 0x20, 0x40, 0x40],
     [0xF0, 0x90, 0xF0, 0x90, 0xF0],
     [0xF0, 0x90, 0xF0, 0x10, 0xF0],
     [0xF0, 0x90, 0xF0, 0x90, 0x90],
     [0xE0, 0x90, 0xE0, 0x90, 0xE0],
     [0xF0, 0x80, 0x80, 0x80, 0xF0],
     [0xE0, 0x90, 0x90, 0x90, 0xE0],
     [0xF0, 0x80, 0xF0, 0x80, 0xF0],
     [0xF0, 0x80, 0xF0, 0x80, 0x80]]
  (∀ g r : Nat, g < 16 → r < 5 →
    glyphs[g]?.bind (fun rows => rows[r]?) = some (readByte State.reset.mem (g * 5 + r))) ∧
  ∀ a, 80 ≤ a → readByte State.reset.mem a = 0x00

/-- 70 R170 to R174 (decision D25, log 20): a reset applied in any state, terminal ones too, leaves CORE as reset leaves it, FONT at 0 .. 79, and the rest of memory as it was. -/
def Obligations.ApplyResetFromAnyState : Prop :=
  ∀ (font : List Byte) (s : State), font.length = 80 →
    (∀ r : Reg, getV (applyReset font s) r = 0x00) ∧ (applyReset font s).i = 0x0000 ∧
    (∀ k : Fin 16, (applyReset font s).stack[k] = 0x0000) ∧ (applyReset font s).sp = 0x00 ∧
    (applyReset font s).dt = 0x00 ∧ (applyReset font s).st = 0x00 ∧
    (applyReset font s).pc = 0x0200 ∧ (applyReset font s).status = .running ∧
    ∀ a, readByte (applyReset font s).mem a =
      if a < 80 then font.getD a 0 else readByte s.mem a

/-- 70 R175, R176 (decision D24): memory at the first step: FONT, ROM from 0x200, MEM_INIT elsewhere, for any parameters that fit. -/
def Obligations.LaunchStateMemory : Prop :=
  ∀ (p : Params) (memInit : Nat → Byte) (font rom : List Byte), p.Ok → font.length = 80 →
    0x200 + rom.length ≤ p.memSize →
    (launch p memInit font rom).pc = 0x0200 ∧
    (launch p memInit font rom).status = .running ∧
    ∀ a, a < p.memSize → readByte (launch p memInit font rom).mem a =
      if a < 80 then font.getD a 0
      else if 0x200 ≤ a ∧ a < 0x200 + rom.length then rom.getD (a - 0x200) 0
      else memInit a
end

