-- ==== Sys2Proof/Laws/Memory.lean ====
section
/-! SUPPORT. What the memory operations do: a write and a read (for memories in any form), accesses of several bytes, and that every operation keeps the canonical form. -/

namespace Sys2Proof.Machine

theorem readByte_filter_same (m : Memory) (a : Nat) :
    readByte (m.filter fun c => c.1 ≠ a) a = unlistedByte a := by
  induction m with
  | nil => rfl
  | cons c m ih =>
    obtain ⟨k, b⟩ := c
    by_cases h : k = a <;> simp_all [readByte]

theorem readByte_filter_other (m : Memory) {a c : Nat} (h : c ≠ a) :
    readByte (m.filter fun d => d.1 ≠ a) c = readByte m c := by
  induction m with
  | nil => rfl
  | cons d m ih =>
    obtain ⟨k, b⟩ := d
    by_cases hk : k = a
    · subst hk; simp_all [readByte, Ne.symm h]
    · simp_all [readByte]

theorem readByte_insertCell_other (m : Memory) {a c : Nat} (b : Byte) (h : c ≠ a) :
    readByte (insertCell m a b) c = readByte m c := by
  induction m with
  | nil => simp [insertCell, readByte, Ne.symm h]
  | cons d m ih =>
    obtain ⟨k, v⟩ := d
    by_cases hk : a < k <;> simp [insertCell, hk, readByte, Ne.symm h, ih]

theorem readByte_insertCell_same (m : Memory) (a : Nat) (b : Byte)
    (h : ∀ d ∈ m, d.1 ≠ a) : readByte (insertCell m a b) a = b := by
  induction m with
  | nil => simp [insertCell, readByte]
  | cons d m ih =>
    obtain ⟨k, v⟩ := d
    have hk : k ≠ a := h (k, v) (by simp)
    by_cases hlt : a < k
    · simp [insertCell, hlt, readByte]
    · simp only [insertCell, hlt, if_false, readByte, hk]
      exact ih fun d hd => h d (by simp [hd])

/-- A byte read where it was written (20 R39). -/
theorem readByte_writeByte_same (m : Memory) (a : Nat) (b : Byte) :
    readByte (writeByte m a b) a = b := by
  unfold writeByte
  split
  · rename_i h; rw [readByte_filter_same, h]
  · exact readByte_insertCell_same _ _ _ (by simp)

/-- A write leaves every other address alone (20 R39). -/
theorem readByte_writeByte_other (m : Memory) {a c : Nat} (b : Byte) (h : c ≠ a) :
    readByte (writeByte m a b) c = readByte m c := by
  unfold writeByte
  split
  · exact readByte_filter_other m h
  · rw [readByte_insertCell_other _ _ h, readByte_filter_other m h]

/-- What a write of several bytes leaves at every address (20 R34). -/
theorem readByte_writeBytes (m : Memory) (a c : Nat) (bs : List Byte) :
    readByte (writeBytes m a bs) c =
      if a ≤ c ∧ c < a + bs.length then bs.getD (c - a) 0 else readByte m c := by
  induction bs generalizing m a with
  | nil => simp only [writeBytes, List.length_nil]; rw [if_neg (by omega)]
  | cons b bs ih =>
    rw [writeBytes, ih]
    rcases Nat.lt_trichotomy c a with h | h | h
    · rw [if_neg (by omega), if_neg (by simp; omega),
        readByte_writeByte_other _ _ (by omega)]
    · subst h
      rw [if_neg (by omega), if_pos (by simp), readByte_writeByte_same]
      simp
    · have e : c - a = (c - (a + 1)) + 1 := by omega
      by_cases hc : c < a + 1 + bs.length
      · rw [if_pos (by omega), if_pos (by simp; omega), e]; simp
      · rw [if_neg (by omega), if_neg (by simp; omega),
          readByte_writeByte_other _ _ (by omega)]

@[simp] theorem readBytes_length (m : Memory) (a n : Nat) : (readBytes m a n).length = n := by
  induction n generalizing a with
  | zero => rfl
  | succ n ih => simp [readBytes, ih]

/-- The k-th byte of a read is MEM[a + k] (20 R33). -/
theorem readBytes_getElem? (m : Memory) (a n k : Nat) (h : k < n) :
    (readBytes m a n)[k]? = some (readByte m (a + k)) := by
  induction n generalizing a k with
  | zero => omega
  | succ n ih =>
    cases k with
    | zero => simp [readBytes]
    | succ k =>
      simp only [readBytes, List.getElem?_cons_succ]
      rw [ih (a + 1) k (by omega)]
      congr 2; omega

/-! ## The canonical form -/

theorem wf_filter {m : Memory} (h : m.wf) (a : Nat) :
    Memory.wf (m.filter fun c => c.1 ≠ a) :=
  ⟨h.1.filter _, fun c hc => h.2 c (List.mem_of_mem_filter hc)⟩

theorem mem_insertCell {m : Memory} {a : Nat} {b : Byte} {c : Host.Cell}
    (h : c ∈ insertCell m a b) : c = (a, b) ∨ c ∈ m := by
  induction m with
  | nil => simpa [insertCell] using h
  | cons d m ih =>
    obtain ⟨k, v⟩ := d
    by_cases hk : a < k
    · simpa [insertCell, hk] using h
    · simp only [insertCell, hk, if_false, List.mem_cons] at h ⊢
      rcases h with h | h
      · exact .inr (.inl h)
      · exact (ih h).imp_right .inr

theorem wf_insertCell {m : Memory} (hm : m.wf) {a : Nat} {b : Byte}
    (ha : ∀ d ∈ m, d.1 ≠ a) (hb : b ≠ unlistedByte a) : Memory.wf (insertCell m a b) := by
  induction m with
  | nil => simp [insertCell, Memory.wf, hb]
  | cons d m ih =>
    obtain ⟨k, v⟩ := d
    obtain ⟨hp, hu⟩ := hm
    have hp' := List.pairwise_cons.1 hp
    have hka : k ≠ a := ha (k, v) (by simp)
    by_cases hk : a < k
    · simp only [insertCell, hk, if_true]
      refine ⟨List.pairwise_cons.2 ⟨?_, hp⟩, ?_⟩
      · intro c hc
        rcases List.mem_cons.1 hc with rfl | hc
        · exact hk
        · exact Nat.lt_trans hk (hp'.1 c hc)
      · intro c hc
        rcases List.mem_cons.1 hc with rfl | hc
        · exact hb
        · exact hu c hc
    · simp only [insertCell, hk, if_false]
      have ih' := ih ⟨hp'.2, fun c hc => hu c (by simp [hc])⟩ fun d hd => ha d (by simp [hd])
      refine ⟨List.pairwise_cons.2 ⟨?_, ih'.1⟩, ?_⟩
      · intro c hc
        rcases mem_insertCell hc with rfl | hc
        · show k < a; omega
        · exact hp'.1 c hc
      · intro c hc
        rcases List.mem_cons.1 hc with rfl | hc
        · exact hu _ (by simp)
        · exact ih'.2 c hc

/-- A write keeps the canonical form. -/
theorem wf_writeByte {m : Memory} (h : m.wf) (a : Nat) (b : Byte) : (writeByte m a b).wf := by
  unfold writeByte
  split
  · exact wf_filter h a
  · rename_i hb; exact wf_insertCell (wf_filter h a) (by simp) hb

/-- A write of several bytes keeps the canonical form. -/
theorem wf_writeBytes {m : Memory} (h : m.wf) (a : Nat) (bs : List Byte) :
    (writeBytes m a bs).wf := by
  induction bs generalizing m a with
  | nil => exact h
  | cons b bs ih => exact ih (wf_writeByte h a b) (a + 1)

/-- The empty memory of the reset state is canonical. -/
theorem wf_nil : Memory.wf [] := by simp [Memory.wf]

/-- A write lists no address but its own beside those that were listed. -/
theorem mem_writeByte {m : Memory} {a : Nat} {b : Byte} {c : Host.Cell}
    (h : c ∈ writeByte m a b) : c.1 = a ∨ c ∈ m := by
  unfold writeByte at h
  split at h
  · exact .inr (List.mem_of_mem_filter h)
  · rcases mem_insertCell h with rfl | h
    · exact .inl rfl
    · exact .inr (List.mem_of_mem_filter h)

theorem mem_writeBytes {m : Memory} {a : Nat} {bs : List Byte} {c : Host.Cell}
    (h : c ∈ writeBytes m a bs) : (a ≤ c.1 ∧ c.1 < a + bs.length) ∨ c ∈ m := by
  induction bs generalizing m a with
  | nil => exact .inr h
  | cons b bs ih =>
    rcases ih h with h | h
    · left; simp; omega
    · rcases mem_writeByte h with h | h
      · left; simp; omega
      · exact .inr h

/-! ## MemRead and MemWrite -/

/-- Whether an access faults and with what (20 R31, R36). -/
theorem accessFault_eq_none_iff (s : State) (kind : AccessKind) (addr n : Nat) :
    accessFault s kind addr n = none ↔ n = 0 ∨ addr + n ≤ s.params.memSize := by
  unfold accessFault
  split
  · rename_i h; simp; omega
  · rename_i h; simp; omega

theorem accessFault_eq_some_iff (s : State) (kind : AccessKind) (addr n : Nat) (c : Cause) :
    accessFault s kind addr n = some c ↔
      n ≠ 0 ∧ s.params.memSize < addr + n ∧
        c = .memoryOutOfRange kind (max addr s.params.memSize) := by
  unfold accessFault
  split
  · rename_i h; simp [h.1, h.2, eq_comm]
  · rename_i h; simp; intro h1 h2; exact absurd ⟨h1, h2⟩ h

/-- What MemRead can answer (20 R33). -/
theorem memRead_cases (s : State) (kind : AccessKind) (addr n : Nat) :
    ((n = 0 ∨ addr + n ≤ s.params.memSize) ∧
      memRead s kind addr n = .ok (readBytes s.mem addr n)) ∨
    (n ≠ 0 ∧ s.params.memSize < addr + n ∧
      memRead s kind addr n = .error (.memoryOutOfRange kind (max addr s.params.memSize))) := by
  unfold memRead
  cases h : accessFault s kind addr n with
  | none => exact .inl ⟨(accessFault_eq_none_iff ..).1 h, rfl⟩
  | some c =>
    obtain ⟨h1, h2, rfl⟩ := (accessFault_eq_some_iff ..).1 h
    exact .inr ⟨h1, h2, rfl⟩

/-- What MemWrite can answer: all of the bytes or none (20 R34). -/
theorem memWrite_cases (s : State) (addr : Nat) (v : List Byte) :
    ((v.length = 0 ∨ addr + v.length ≤ s.params.memSize) ∧
      memWrite s addr v = .ok { s with mem := writeBytes s.mem addr v }) ∨
    (v.length ≠ 0 ∧ s.params.memSize < addr + v.length ∧
      memWrite s addr v = .error (.memoryOutOfRange .write (max addr s.params.memSize))) := by
  unfold memWrite
  cases h : accessFault s .write addr v.length with
  | none => exact .inl ⟨(accessFault_eq_none_iff ..).1 h, rfl⟩
  | some c =>
    obtain ⟨h1, h2, rfl⟩ := (accessFault_eq_some_iff ..).1 h
    exact .inr ⟨h1, h2, rfl⟩

/-- What the fetch can answer (40 R72). -/
theorem fetch_cases (s : State) :
    (s.pc.toNat + 2 ≤ s.params.memSize ∧
      fetch s = .ok (readByte s.mem s.pc.toNat, readByte s.mem (s.pc.toNat + 1))) ∨
    (s.params.memSize < s.pc.toNat + 2 ∧
      fetch s = .error (.memoryOutOfRange .fetch (max s.pc.toNat s.params.memSize))) := by
  unfold fetch
  cases h : accessFault s .fetch s.pc.toNat 2 with
  | none =>
    refine .inl ⟨?_, rfl⟩
    have := (accessFault_eq_none_iff ..).1 h
    omega
  | some c =>
    obtain ⟨-, h2, rfl⟩ := (accessFault_eq_some_iff ..).1 h
    exact .inr ⟨h2, rfl⟩

end Sys2Proof.Machine
end

