-- ==== Sys2Proof/Laws/Boot.lean ====
section
/-! SUPPORT. The operations outside the steps keep memory canonical: placing a word, the reset, the loader, the memory the environment provides. -/

namespace Sys2Proof.Machine

theorem wf_placeWord {s : State} (h : Memory.wf s.mem) (w : Word) :
    Memory.wf (placeWord s w).mem := wf_writeBytes h _ _

theorem wf_withFetchWord {s : State} (h : Memory.wf s.mem) (nbits w : Nat) :
    Memory.wf (s.withFetchWord nbits w).mem := wf_placeWord h _

theorem wf_applyReset {s : State} (h : Memory.wf s.mem) (font : List Byte) :
    Memory.wf (applyReset font s).mem := wf_writeBytes h _ _

theorem wf_loadRom {s : State} (h : Memory.wf s.mem) (rom : List Byte) :
    Memory.wf (loadRom rom s).mem := wf_writeBytes h _ _

theorem wf_provideMemory (memInit : Nat → Byte) (n : Nat) :
    Memory.wf (provideMemory memInit n) := by
  induction n with
  | zero => exact wf_nil
  | succ n ih => exact wf_writeByte ih n (memInit n)

/-- The launch state's memory is canonical, whatever FONT, MEM_INIT and ROM are (70 R176). -/
theorem wf_launch (p : Params) (memInit : Nat → Byte) (font rom : List Byte) :
    Memory.wf (launch p memInit font rom).mem :=
  wf_loadRom (wf_applyReset (wf_provideMemory memInit p.memSize) font) rom

end Sys2Proof.Machine
end

