-- ==== Sys2Proof/Laws/Encoding.lean ====
section
/-! SUPPORT. The fields of a word built by one of the three formats (30 section 3), and of a word put together from its two bytes. -/

namespace Sys2Proof

@[simp] theorem opField_formatNnn (op : BitVec 4) (nnn : Addr12) :
    opField (formatNnn op nnn) = op := by
  apply BitVec.eq_of_getLsbD_eq
  intro k hk
  simp only [opField, formatNnn, BitVec.getLsbD_extractLsb', BitVec.getLsbD_append]
  rw [if_neg (by omega)]; simp [hk]

@[simp] theorem nnnField_formatNnn (op : BitVec 4) (nnn : Addr12) :
    nnnField (formatNnn op nnn) = nnn := by
  apply BitVec.eq_of_getLsbD_eq
  intro k hk
  simp only [nnnField, formatNnn, BitVec.getLsbD_extractLsb', BitVec.getLsbD_append]
  rw [if_pos (by omega)]; simp [hk]

@[simp] theorem opField_formatXkk (op : BitVec 4) (x : Reg) (kk : Byte) :
    opField (formatXkk op x kk) = op := by
  apply BitVec.eq_of_getLsbD_eq
  intro k hk
  simp only [opField, formatXkk, BitVec.getLsbD_extractLsb', BitVec.getLsbD_append]
  rw [if_neg (by omega), if_neg (by omega), show 12 + k - 8 - 4 = k by omega]; simp [hk]

@[simp] theorem xField_formatXkk (op : BitVec 4) (x : Reg) (kk : Byte) :
    xField (formatXkk op x kk) = x := by
  apply BitVec.eq_of_getLsbD_eq
  intro k hk
  simp only [xField, formatXkk, BitVec.getLsbD_extractLsb', BitVec.getLsbD_append]
  rw [if_neg (by omega), if_pos (by omega), show 8 + k - 8 = k by omega]; simp [hk]

@[simp] theorem kkField_formatXkk (op : BitVec 4) (x : Reg) (kk : Byte) :
    kkField (formatXkk op x kk) = kk := by
  apply BitVec.eq_of_getLsbD_eq
  intro k hk
  simp only [kkField, formatXkk, BitVec.getLsbD_extractLsb', BitVec.getLsbD_append]
  rw [if_pos (by omega)]; simp [hk]

@[simp] theorem opField_formatXyn (op : BitVec 4) (x y : Reg) (n : BitVec 4) :
    opField (formatXyn op x y n) = op := by
  apply BitVec.eq_of_getLsbD_eq
  intro k hk
  simp only [opField, formatXyn, BitVec.getLsbD_extractLsb', BitVec.getLsbD_append]
  rw [if_neg (by omega), if_neg (by omega), if_neg (by omega),
    show 12 + k - 4 - 4 - 4 = k by omega]
  simp [hk]

@[simp] theorem xField_formatXyn (op : BitVec 4) (x y : Reg) (n : BitVec 4) :
    xField (formatXyn op x y n) = x := by
  apply BitVec.eq_of_getLsbD_eq
  intro k hk
  simp only [xField, formatXyn, BitVec.getLsbD_extractLsb', BitVec.getLsbD_append]
  rw [if_neg (by omega), if_neg (by omega), if_pos (by omega), show 8 + k - 4 - 4 = k by omega]
  simp [hk]

@[simp] theorem yField_formatXyn (op : BitVec 4) (x y : Reg) (n : BitVec 4) :
    yField (formatXyn op x y n) = y := by
  apply BitVec.eq_of_getLsbD_eq
  intro k hk
  simp only [yField, formatXyn, BitVec.getLsbD_extractLsb', BitVec.getLsbD_append]
  rw [if_neg (by omega), if_pos (by omega), show 4 + k - 4 = k by omega]; simp [hk]

@[simp] theorem nField_formatXyn (op : BitVec 4) (x y : Reg) (n : BitVec 4) :
    nField (formatXyn op x y n) = n := by
  apply BitVec.eq_of_getLsbD_eq
  intro k hk
  simp only [nField, formatXyn, BitVec.getLsbD_extractLsb', BitVec.getLsbD_append]
  rw [if_pos (by omega)]; simp [hk]

/-- A word is its two bytes, the high one first (20 R35). -/
@[simp] theorem wordOf_hiByte_loByte (w : Word) : wordOf (hiByte w) (loByte w) = w := by
  apply BitVec.eq_of_getLsbD_eq
  intro k hk
  simp only [wordOf, hiByte, loByte, BitVec.getLsbD_append, BitVec.getLsbD_extractLsb']
  by_cases h : k < 8
  · simp [h]
  · simp [h, show 8 + (k - 8) = k by omega]; omega

/-- A row's mask and match pin op alone, for the rows whose mask is 0xF000 (30 R56). -/
theorem and_F000 (w : Word) : w &&& 0xF000#16 = (opField w) ++ (0#12) := by
  apply BitVec.eq_of_getLsbD_eq
  intro k hk
  simp only [opField, BitVec.getLsbD_and, BitVec.getLsbD_append, BitVec.getLsbD_extractLsb']
  interval_cases k <;> simp

/-- op and n, for the rows whose mask is 0xF00F (30 R56). -/
theorem and_F00F (w : Word) : w &&& 0xF00F#16 = ((opField w) ++ (0#8)) ++ (nField w) := by
  apply BitVec.eq_of_getLsbD_eq
  intro k hk
  simp only [opField, nField, BitVec.getLsbD_and, BitVec.getLsbD_append,
    BitVec.getLsbD_extractLsb']
  interval_cases k <;> simp

/-- op and kk, for the rows whose mask is 0xF0FF (30 R56). -/
theorem and_F0FF (w : Word) : w &&& 0xF0FF#16 = ((opField w) ++ (0#4)) ++ (kkField w) := by
  apply BitVec.eq_of_getLsbD_eq
  intro k hk
  simp only [opField, kkField, BitVec.getLsbD_and, BitVec.getLsbD_append,
    BitVec.getLsbD_extractLsb']
  interval_cases k <;> simp

/-- The op of a word whose row's mask is 0xF000 (30 R56). -/
theorem opField_of_and_F000 {w b : Word} (h : w &&& 0xF000 = b) : opField w = opField b := by
  rw [← (and_F000 w).symm.trans h]
  exact (opField_formatNnn _ _).symm

/-- The op and the sub-key n of a word whose row's mask is 0xF00F (30 R56). -/
theorem fields_of_and_F00F {w b : Word} (h : w &&& 0xF00F = b) :
    opField w = opField b ∧ nField w = nField b := by
  rw [← (and_F00F w).symm.trans h]
  have e : (opField w ++ 0#8) ++ nField w = formatXyn (opField w) 0 0 (nField w) := by
    apply BitVec.eq_of_getLsbD_eq
    intro k hk
    simp only [formatXyn, BitVec.getLsbD_append]
    interval_cases k <;> simp
  rw [e]
  exact ⟨(opField_formatXyn _ _ _ _).symm, (nField_formatXyn _ _ _ _).symm⟩

/-- The op and the sub-key kk of a word whose row's mask is 0xF0FF (30 R56). -/
theorem fields_of_and_F0FF {w b : Word} (h : w &&& 0xF0FF = b) :
    opField w = opField b ∧ kkField w = kkField b := by
  rw [← (and_F0FF w).symm.trans h]
  exact ⟨(opField_formatXkk _ _ _).symm, (kkField_formatXkk _ _ _).symm⟩

/-- The encoded word of an instruction matches its own row of the table. -/
theorem supportedWord_of_row (w : Word) (r : OpcodeRow) (hr : r ∈ opcodeTable)
    (h : w &&& r.mask = r.bits) : supportedWord w = true :=
  List.any_eq_true.2 ⟨r, hr, by simp [h]⟩

end Sys2Proof
end

