-- ==== Sys2Proof/Laws/State.lean ====
section
/-! SUPPORT. One lemma for each field of State under each update of Machine/Ops.lean, all true by rfl, and the registers read through getV. -/

namespace Sys2Proof.Machine

@[simp] theorem advance_eq (s : State) : advance s = setPc s (s.pc + 2) := rfl
@[simp] theorem skipIf_eq (c : Bool) (s : State) :
    skipIf c s = setPc s (if c then s.pc + 4 else s.pc + 2) := rfl
@[simp] theorem setVf_eq (s : State) (f : Byte) : setVf s f = setV s Reg.vf f := rfl

/-- A register read after a register write (10 R10). -/
@[simp] theorem getV_setV (s : State) (x r : Reg) (b : Byte) :
    getV (setV s x b) r = if r = x then b else getV s r := by
  simp only [getV, setV, Vector.getElem_set]
  by_cases h : x = r
  · simp [h]
  · have h' : ¬ x.toNat = r.toNat := fun e => h (BitVec.eq_of_toNat_eq e)
    simp [h', Ne.symm h]

@[simp] theorem setV_v (s : State) (x : Reg) (b : Byte) : (setV s x b).v = s.v.set x.toNat b x.isLt := rfl
@[simp] theorem setV_pc (s : State) (x : Reg) (b : Byte) : (setV s x b).pc = s.pc := rfl
@[simp] theorem setV_i (s : State) (x : Reg) (b : Byte) : (setV s x b).i = s.i := rfl
@[simp] theorem setV_stack (s : State) (x : Reg) (b : Byte) : (setV s x b).stack = s.stack := rfl
@[simp] theorem setV_sp (s : State) (x : Reg) (b : Byte) : (setV s x b).sp = s.sp := rfl
@[simp] theorem setV_dt (s : State) (x : Reg) (b : Byte) : (setV s x b).dt = s.dt := rfl
@[simp] theorem setV_st (s : State) (x : Reg) (b : Byte) : (setV s x b).st = s.st := rfl
@[simp] theorem setV_status (s : State) (x : Reg) (b : Byte) : (setV s x b).status = s.status := rfl
@[simp] theorem setV_mem (s : State) (x : Reg) (b : Byte) : (setV s x b).mem = s.mem := rfl
@[simp] theorem setV_params (s : State) (x : Reg) (b : Byte) : (setV s x b).params = s.params := rfl
@[simp] theorem setV_display (s : State) (x : Reg) (b : Byte) : (setV s x b).display = s.display := rfl
@[simp] theorem setV_env (s : State) (x : Reg) (b : Byte) : (setV s x b).env = s.env := rfl
@[simp] theorem setV_draws (s : State) (x : Reg) (b : Byte) : (setV s x b).draws = s.draws := rfl

@[simp] theorem setPc_v (s : State) (w : Word) : (setPc s w).v = s.v := rfl
@[simp] theorem setPc_pc (s : State) (w : Word) : (setPc s w).pc = w := rfl
@[simp] theorem setPc_i (s : State) (w : Word) : (setPc s w).i = s.i := rfl
@[simp] theorem setPc_stack (s : State) (w : Word) : (setPc s w).stack = s.stack := rfl
@[simp] theorem setPc_sp (s : State) (w : Word) : (setPc s w).sp = s.sp := rfl
@[simp] theorem setPc_dt (s : State) (w : Word) : (setPc s w).dt = s.dt := rfl
@[simp] theorem setPc_st (s : State) (w : Word) : (setPc s w).st = s.st := rfl
@[simp] theorem setPc_status (s : State) (w : Word) : (setPc s w).status = s.status := rfl
@[simp] theorem setPc_mem (s : State) (w : Word) : (setPc s w).mem = s.mem := rfl
@[simp] theorem setPc_params (s : State) (w : Word) : (setPc s w).params = s.params := rfl
@[simp] theorem setPc_display (s : State) (w : Word) : (setPc s w).display = s.display := rfl
@[simp] theorem setPc_env (s : State) (w : Word) : (setPc s w).env = s.env := rfl
@[simp] theorem setPc_draws (s : State) (w : Word) : (setPc s w).draws = s.draws := rfl
@[simp] theorem setPc_getV (s : State) (w : Word) (r : Reg) : getV (setPc s w) r = getV s r := rfl

@[simp] theorem setI_v (s : State) (w : Word) : (setI s w).v = s.v := rfl
@[simp] theorem setI_pc (s : State) (w : Word) : (setI s w).pc = s.pc := rfl
@[simp] theorem setI_i (s : State) (w : Word) : (setI s w).i = w := rfl
@[simp] theorem setI_stack (s : State) (w : Word) : (setI s w).stack = s.stack := rfl
@[simp] theorem setI_sp (s : State) (w : Word) : (setI s w).sp = s.sp := rfl
@[simp] theorem setI_dt (s : State) (w : Word) : (setI s w).dt = s.dt := rfl
@[simp] theorem setI_st (s : State) (w : Word) : (setI s w).st = s.st := rfl
@[simp] theorem setI_status (s : State) (w : Word) : (setI s w).status = s.status := rfl
@[simp] theorem setI_mem (s : State) (w : Word) : (setI s w).mem = s.mem := rfl
@[simp] theorem setI_params (s : State) (w : Word) : (setI s w).params = s.params := rfl
@[simp] theorem setI_display (s : State) (w : Word) : (setI s w).display = s.display := rfl
@[simp] theorem setI_env (s : State) (w : Word) : (setI s w).env = s.env := rfl
@[simp] theorem setI_draws (s : State) (w : Word) : (setI s w).draws = s.draws := rfl
@[simp] theorem setI_getV (s : State) (w : Word) (r : Reg) : getV (setI s w) r = getV s r := rfl

@[simp] theorem setDt_v (s : State) (b : Byte) : (setDt s b).v = s.v := rfl
@[simp] theorem setDt_pc (s : State) (b : Byte) : (setDt s b).pc = s.pc := rfl
@[simp] theorem setDt_i (s : State) (b : Byte) : (setDt s b).i = s.i := rfl
@[simp] theorem setDt_stack (s : State) (b : Byte) : (setDt s b).stack = s.stack := rfl
@[simp] theorem setDt_sp (s : State) (b : Byte) : (setDt s b).sp = s.sp := rfl
@[simp] theorem setDt_dt (s : State) (b : Byte) : (setDt s b).dt = b := rfl
@[simp] theorem setDt_st (s : State) (b : Byte) : (setDt s b).st = s.st := rfl
@[simp] theorem setDt_status (s : State) (b : Byte) : (setDt s b).status = s.status := rfl
@[simp] theorem setDt_mem (s : State) (b : Byte) : (setDt s b).mem = s.mem := rfl
@[simp] theorem setDt_params (s : State) (b : Byte) : (setDt s b).params = s.params := rfl
@[simp] theorem setDt_display (s : State) (b : Byte) : (setDt s b).display = s.display := rfl
@[simp] theorem setDt_env (s : State) (b : Byte) : (setDt s b).env = s.env := rfl
@[simp] theorem setDt_draws (s : State) (b : Byte) : (setDt s b).draws = s.draws := rfl
@[simp] theorem setDt_getV (s : State) (b : Byte) (r : Reg) : getV (setDt s b) r = getV s r := rfl

@[simp] theorem setSt_v (s : State) (b : Byte) : (setSt s b).v = s.v := rfl
@[simp] theorem setSt_pc (s : State) (b : Byte) : (setSt s b).pc = s.pc := rfl
@[simp] theorem setSt_i (s : State) (b : Byte) : (setSt s b).i = s.i := rfl
@[simp] theorem setSt_stack (s : State) (b : Byte) : (setSt s b).stack = s.stack := rfl
@[simp] theorem setSt_sp (s : State) (b : Byte) : (setSt s b).sp = s.sp := rfl
@[simp] theorem setSt_dt (s : State) (b : Byte) : (setSt s b).dt = s.dt := rfl
@[simp] theorem setSt_st (s : State) (b : Byte) : (setSt s b).st = b := rfl
@[simp] theorem setSt_status (s : State) (b : Byte) : (setSt s b).status = s.status := rfl
@[simp] theorem setSt_mem (s : State) (b : Byte) : (setSt s b).mem = s.mem := rfl
@[simp] theorem setSt_params (s : State) (b : Byte) : (setSt s b).params = s.params := rfl
@[simp] theorem setSt_display (s : State) (b : Byte) : (setSt s b).display = s.display := rfl
@[simp] theorem setSt_env (s : State) (b : Byte) : (setSt s b).env = s.env := rfl
@[simp] theorem setSt_draws (s : State) (b : Byte) : (setSt s b).draws = s.draws := rfl
@[simp] theorem setSt_getV (s : State) (b : Byte) (r : Reg) : getV (setSt s b) r = getV s r := rfl

@[simp] theorem push_v (s : State) (w : Word) : (push s w).v = s.v := rfl
@[simp] theorem push_pc (s : State) (w : Word) : (push s w).pc = s.pc := rfl
@[simp] theorem push_i (s : State) (w : Word) : (push s w).i = s.i := rfl
@[simp] theorem push_stack (s : State) (w : Word) : (push s w).stack = s.stack.setIfInBounds (s.sp + 1).toNat w := rfl
@[simp] theorem push_sp (s : State) (w : Word) : (push s w).sp = s.sp + 1 := rfl
@[simp] theorem push_dt (s : State) (w : Word) : (push s w).dt = s.dt := rfl
@[simp] theorem push_st (s : State) (w : Word) : (push s w).st = s.st := rfl
@[simp] theorem push_status (s : State) (w : Word) : (push s w).status = s.status := rfl
@[simp] theorem push_mem (s : State) (w : Word) : (push s w).mem = s.mem := rfl
@[simp] theorem push_params (s : State) (w : Word) : (push s w).params = s.params := rfl
@[simp] theorem push_display (s : State) (w : Word) : (push s w).display = s.display := rfl
@[simp] theorem push_env (s : State) (w : Word) : (push s w).env = s.env := rfl
@[simp] theorem push_draws (s : State) (w : Word) : (push s w).draws = s.draws := rfl
@[simp] theorem push_getV (s : State) (w : Word) (r : Reg) : getV (push s w) r = getV s r := rfl

@[simp] theorem pop_v (s : State) : (pop s).v = s.v := rfl
@[simp] theorem pop_pc (s : State) : (pop s).pc = s.pc := rfl
@[simp] theorem pop_i (s : State) : (pop s).i = s.i := rfl
@[simp] theorem pop_stack (s : State) : (pop s).stack = s.stack := rfl
@[simp] theorem pop_sp (s : State) : (pop s).sp = s.sp - 1 := rfl
@[simp] theorem pop_dt (s : State) : (pop s).dt = s.dt := rfl
@[simp] theorem pop_st (s : State) : (pop s).st = s.st := rfl
@[simp] theorem pop_status (s : State) : (pop s).status = s.status := rfl
@[simp] theorem pop_mem (s : State) : (pop s).mem = s.mem := rfl
@[simp] theorem pop_params (s : State) : (pop s).params = s.params := rfl
@[simp] theorem pop_display (s : State) : (pop s).display = s.display := rfl
@[simp] theorem pop_env (s : State) : (pop s).env = s.env := rfl
@[simp] theorem pop_draws (s : State) : (pop s).draws = s.draws := rfl
@[simp] theorem pop_getV (s : State) (r : Reg) : getV (pop s) r = getV s r := rfl

@[simp] theorem tick_v (s : State) : (tick s).v = s.v := rfl
@[simp] theorem tick_pc (s : State) : (tick s).pc = s.pc := rfl
@[simp] theorem tick_i (s : State) : (tick s).i = s.i := rfl
@[simp] theorem tick_stack (s : State) : (tick s).stack = s.stack := rfl
@[simp] theorem tick_sp (s : State) : (tick s).sp = s.sp := rfl
@[simp] theorem tick_dt (s : State) : (tick s).dt = countDown s.dt := rfl
@[simp] theorem tick_st (s : State) : (tick s).st = countDown s.st := rfl
@[simp] theorem tick_status (s : State) : (tick s).status = s.status := rfl
@[simp] theorem tick_mem (s : State) : (tick s).mem = s.mem := rfl
@[simp] theorem tick_params (s : State) : (tick s).params = s.params := rfl
@[simp] theorem tick_display (s : State) : (tick s).display = s.display := rfl
@[simp] theorem tick_env (s : State) : (tick s).env = s.env := rfl
@[simp] theorem tick_draws (s : State) : (tick s).draws = s.draws := rfl
@[simp] theorem tick_getV (s : State) (r : Reg) : getV (tick s) r = getV s r := rfl

@[simp] theorem sendDraw_v (s : State) (c : DrawCommand) : (sendDraw s c).v = s.v := rfl
@[simp] theorem sendDraw_pc (s : State) (c : DrawCommand) : (sendDraw s c).pc = s.pc := rfl
@[simp] theorem sendDraw_i (s : State) (c : DrawCommand) : (sendDraw s c).i = s.i := rfl
@[simp] theorem sendDraw_stack (s : State) (c : DrawCommand) : (sendDraw s c).stack = s.stack := rfl
@[simp] theorem sendDraw_sp (s : State) (c : DrawCommand) : (sendDraw s c).sp = s.sp := rfl
@[simp] theorem sendDraw_dt (s : State) (c : DrawCommand) : (sendDraw s c).dt = s.dt := rfl
@[simp] theorem sendDraw_st (s : State) (c : DrawCommand) : (sendDraw s c).st = s.st := rfl
@[simp] theorem sendDraw_status (s : State) (c : DrawCommand) : (sendDraw s c).status = s.status := rfl
@[simp] theorem sendDraw_mem (s : State) (c : DrawCommand) : (sendDraw s c).mem = s.mem := rfl
@[simp] theorem sendDraw_params (s : State) (c : DrawCommand) : (sendDraw s c).params = s.params := rfl
@[simp] theorem sendDraw_display (s : State) (c : DrawCommand) : (sendDraw s c).display = s.display ++ [c] := rfl
@[simp] theorem sendDraw_env (s : State) (c : DrawCommand) : (sendDraw s c).env = s.env := rfl
@[simp] theorem sendDraw_draws (s : State) (c : DrawCommand) : (sendDraw s c).draws = s.draws := rfl
@[simp] theorem sendDraw_getV (s : State) (c : DrawCommand) (r : Reg) : getV (sendDraw s c) r = getV s r := rfl

@[simp] theorem endStep_v (s : State) : (endStep s).v = s.v := rfl
@[simp] theorem endStep_pc (s : State) : (endStep s).pc = s.pc := rfl
@[simp] theorem endStep_i (s : State) : (endStep s).i = s.i := rfl
@[simp] theorem endStep_stack (s : State) : (endStep s).stack = s.stack := rfl
@[simp] theorem endStep_sp (s : State) : (endStep s).sp = s.sp := rfl
@[simp] theorem endStep_dt (s : State) : (endStep s).dt = s.dt := rfl
@[simp] theorem endStep_st (s : State) : (endStep s).st = s.st := rfl
@[simp] theorem endStep_status (s : State) : (endStep s).status = s.status := rfl
@[simp] theorem endStep_mem (s : State) : (endStep s).mem = s.mem := rfl
@[simp] theorem endStep_params (s : State) : (endStep s).params = s.params := rfl
@[simp] theorem endStep_display (s : State) : (endStep s).display = s.display := rfl
@[simp] theorem endStep_env (s : State) : (endStep s).env = s.env.tail := rfl
@[simp] theorem endStep_draws (s : State) : (endStep s).draws = s.draws + 1 := rfl
@[simp] theorem endStep_getV (s : State) (r : Reg) : getV (endStep s) r = getV s r := rfl

end Sys2Proof.Machine
end

