-- ==== Sys2Proof/Laws/Ops.lean ====
section
/-! SUPPORT. One lemma for each shared operation beside memory: what it can do. -/

namespace Sys2Proof.Machine

/-! ## Registers and stack -/

/-- Loading a list of registers changes nothing but V (46 R131). -/
theorem setVs_frame (s : State) (k : Nat) (bs : List Byte) :
    setVs s k bs = { s with v := (setVs s k bs).v } := by
  induction bs generalizing s k with
  | nil => rfl
  | cons b bs ih =>
    rw [setVs, ih]

/-- Which registers a list of bytes loads, and with what (46 R131). -/
theorem getV_setVs (s : State) (k : Nat) (bs : List Byte) (r : Reg) :
    getV (setVs s k bs) r =
      if k ≤ r.toNat ∧ r.toNat < k + bs.length then bs.getD (r.toNat - k) 0 else getV s r := by
  induction bs generalizing s k with
  | nil => simp only [setVs, List.length_nil]; rw [if_neg (by omega)]
  | cons b bs ih =>
    rw [setVs, ih]
    have hr : r.toNat < 16 := r.isLt
    have hget : getV { s with v := s.v.setIfInBounds k b } r =
        if k = r.toNat then b else getV s r := by
      simp only [getV, Vector.getElem_setIfInBounds]
    rw [hget]
    rcases Nat.lt_trichotomy r.toNat k with h | h | h
    · rw [if_neg (by omega), if_neg (by omega), if_neg (by simp; omega)]
    · rw [if_neg (by omega), if_pos h.symm, if_pos (by simp; omega)]
      simp [h]
    · have e : r.toNat - k = (r.toNat - (k + 1)) + 1 := by omega
      by_cases hc : r.toNat < k + 1 + bs.length
      · rw [if_pos (by omega), if_pos (by simp; omega), e]; simp
      · rw [if_neg (by omega), if_neg (by omega), if_neg (by simp; omega)]

/-- A stack entry read within the 16 that exist (10 R22). -/
theorem stackEntry_of_lt (s : State) (k : Byte) (h : k.toNat < 16) :
    stackEntry s k = s.stack[k.toNat] := by
  simp [stackEntry, h]

/-- The timers' decrement, as a subtraction that stops at zero (40 R73). -/
theorem countDown_toNat (b : Byte) : (countDown b).toNat = b.toNat - 1 := by
  unfold countDown
  split
  · rename_i h; simp [h]
  · rename_i h
    have : b.toNat ≠ 0 := fun e => h (BitVec.eq_of_toNat_eq (by simpa using e))
    rw [BitVec.toNat_sub_of_le (by simp [BitVec.le_def]; omega)]; rfl

/-! ## Ports -/

/-- The inputs of the coming step depend on env and draws alone (40 R79). -/
theorem inputs_congr {s t : State} (he : t.env = s.env) (hd : t.draws = s.draws) :
    inputs t = inputs s := by
  simp [inputs, he, hd]

@[simp] theorem inputs_sendDraw (s : State) (c : DrawCommand) :
    inputs (sendDraw s c) = inputs s := inputs_congr rfl rfl

@[simp] theorem inputs_tick (s : State) : inputs (tick s) = inputs s := inputs_congr rfl rfl

/-- DRAW_WRITES_VF changes nothing but V (44 R112). -/
theorem collisionToVf_frame (s : State) :
    collisionToVf s = { s with v := (collisionToVf s).v } := by
  unfold collisionToVf
  split <;> rfl

/-- What a draw leaves in the registers (44 R112). -/
theorem getV_collisionToVf (s : State) (r : Reg) :
    getV (collisionToVf s) r =
      if r = Reg.vf ∧ s.params.drawWritesVf then flagByte (inputs s).collision else getV s r := by
  unfold collisionToVf
  split
  · rename_i h; simp [h]
  · rename_i h; simp [h]

/-! ## Operands -/

@[simp] theorem target_toNat (nnn : Addr12) : (target nnn).toNat = nnn.toNat := by
  have := nnn.isLt
  simp [target]; omega

/-- The product of 46 R129 does not overflow. -/
theorem glyphAddress_toNat (v : Byte) : (glyphAddress v).toNat = v.toNat * 5 := by
  have := v.isLt
  simp [glyphAddress, BitVec.toNat_mul]; omega

/-- What the key test can answer (45 R122). -/
theorem keyDown_cases (s : State) (v : Byte) :
    (∃ b, keyDown s v = .ok b) ∨
    (15 < v.toNat ∧ s.params.keyOor = .fault ∧ keyDown s v = .error (.keyIndexOutOfRange v)) := by
  unfold keyDown
  split
  · exact .inl ⟨_, rfl⟩
  · rename_i h
    cases hk : s.params.keyOor
    · exact .inr ⟨by omega, rfl, rfl⟩
    · exact .inl ⟨_, rfl⟩
    · exact .inl ⟨_, rfl⟩

/-! ## Outcomes -/

/-- A next state after onNext comes from a next state. -/
theorem onNext_eq_next {f : State → State} {o : Host.Outcome State Fault Refusal} {t : State} :
    onNext f o = .next t ↔ ∃ u, o = .next u ∧ f u = t := by
  cases o <;> simp [onNext]

@[simp] theorem onNext_next (f : State → State) (t : State) : onNext f (.next t) = .next (f t) :=
  rfl

@[simp] theorem raise_eq (c : Cause) (s : State) :
    raise c s = .next { s with status := .faulted c } := rfl

@[simp] theorem complete_ok (s t : State) : complete s (.ok t) = .next t := rfl
@[simp] theorem complete_error (s : State) (c : Cause) :
    complete s (.error c) = raise c s := rfl

/-! ## The step -/

/-- The decoder refuses a word exactly when the dispatch has no row for it (30 R57). -/
theorem decode_cases (hi lo : Byte) :
    (∃ i, decodeWord (wordOf hi lo) = some i ∧ decode hi lo = .ok i) ∨
    (decodeWord (wordOf hi lo) = none ∧
      decode hi lo = .error (.unsupportedWord (wordOf hi lo))) := by
  unfold decode
  cases h : decodeWord (wordOf hi lo) with
  | none => exact .inr ⟨rfl, rfl⟩
  | some i => exact .inl ⟨i, rfl, rfl⟩

/-- Everything a step of a running machine can do (40 R70, 60 R150). -/
theorem step_cases (s : State) (h : s.status = .running) :
    ((inputs s).stop = true ∧ step s = .next (endStep { s with status := .stopped })) ∨
    ((inputs s).stop = false ∧ s.params.memSize < s.pc.toNat + 2 ∧
      step s = .next (endStep { s with
        status := .faulted (.memoryOutOfRange .fetch (max s.pc.toNat s.params.memSize)) })) ∨
    (Ready s ∧ decodeWord (wordAtPc s) = none ∧
      step s = .next (endStep { tick s with
        status := .faulted (.unsupportedInstruction (wordAtPc s)) })) ∨
    (Ready s ∧ ∃ i, decodeWord (wordAtPc s) = some i ∧
      step s = onNext endStep (exec i (tick s))) := by
  unfold step cycle
  rw [h]
  simp only [pass]
  cases hs : (inputs s).stop
  · right
    simp only [Bool.false_eq_true, if_false]
    rcases fetch_cases s with ⟨hr, hf⟩ | ⟨hr, hf⟩
    · right
      rw [hf]
      simp only [decodeAndExecute]
      rcases decode_cases (readByte s.mem s.pc.toNat) (readByte s.mem (s.pc.toNat + 1)) with
        ⟨i, hw, hd⟩ | ⟨hw, hd⟩
      · exact .inr ⟨⟨h, hs, hr⟩, i, hw, by rw [hd]⟩
      · exact .inl ⟨⟨h, hs, hr⟩, hw, by rw [hd]; rfl⟩
    · exact .inl ⟨trivial, hr, by rw [hf]; rfl⟩
  · exact .inl ⟨rfl, rfl⟩

/-- A step that answers a next state started in a running machine (40 R78). -/
theorem running_of_step {s t : State} (h : step s = .next t) : s.status = .running := by
  unfold step cycle at h
  cases hs : s.status <;> simp_all

end Sys2Proof.Machine
end

