-- ==== Sys2Proof/Laws/Exec.lean ====
section
/-! SUPPORT. What each meaning that can fault may answer (60 R150), and the step of a ready machine; every other meaning is one next state by its definition. -/

namespace Sys2Proof.Machine

/-- A ready machine's step runs the instruction its word decodes to (40 R74). -/
theorem step_of_ready {s : State} {i : Instr} (h : Ready s)
    (hi : decodeWord (wordAtPc s) = some i) : step s = onNext endStep (exec i (tick s)) := by
  rcases step_cases s h.1 with h' | h' | h' | ⟨_, j, hj, hs⟩
  · exact absurd h'.1 (by simp [h.2.1])
  · exact absurd h'.2.1 (by have := h.2.2; omega)
  · exact absurd h'.2.1 (by simp [hi])
  · rw [hs, Option.some.inj (hi.symm.trans hj)]

/-- RET pops, or the stack is empty (41 R80). -/
theorem execRet_cases (s : State) :
    (s.sp ≠ 0 ∧ execRet s = .next (pop (setPc s (stackEntry s s.sp + 2)))) ∨
    (s.sp = 0 ∧ execRet s = raise (.stackUnderflow s.pc) s) := by
  unfold execRet
  split
  · exact .inr ⟨‹_›, rfl⟩
  · exact .inl ⟨‹_›, rfl⟩

/-- CALL pushes, or the stack is full (41 R82). -/
theorem execCall_cases (nnn : Addr12) (s : State) :
    (s.sp.toNat < 15 ∧ execCall nnn s = .next (setPc (push s s.pc) (target nnn))) ∨
    (15 ≤ s.sp.toNat ∧ execCall nnn s = raise (.stackOverflow s.pc) s) := by
  unfold execCall
  split
  · exact .inr ⟨‹_›, rfl⟩
  · exact .inl ⟨by omega, rfl⟩

/-- DRW sends its command, or a byte of the sprite is out of range (44 R112). -/
theorem execDrw_cases (x y : Reg) (n : BitVec 4) (s : State) :
    (DataInRange s n.toNat ∧ execDrw x y n s = .next (advance (collisionToVf (sendDraw s
      { x := getV s x, y := getV s y, rows := readBytes s.mem s.i.toNat n.toNat })))) ∨
    (¬ DataInRange s n.toNat ∧ execDrw x y n s =
      raise (.memoryOutOfRange .read (max s.i.toNat s.params.memSize)) s) := by
  unfold execDrw DataInRange
  rcases memRead_cases s .read (dataAddress s) n.toNat with ⟨h, e⟩ | ⟨h1, h2, e⟩ <;> rw [e]
  · exact .inl ⟨h, rfl⟩
  · exact .inr ⟨by unfold dataAddress at h2; omega, rfl⟩

/-- LD B stores its three bytes, or one of them is out of range (46 R130). -/
theorem execLdB_cases (x : Reg) (s : State) :
    (DataInRange s 3 ∧ execLdB x s = .next (advance
      { s with mem := writeBytes s.mem s.i.toNat (bcdDigits (getV s x)) })) ∨
    (¬ DataInRange s 3 ∧ execLdB x s =
      raise (.memoryOutOfRange .write (max s.i.toNat s.params.memSize)) s) := by
  unfold execLdB DataInRange
  rcases memWrite_cases s (dataAddress s) (bcdDigits (getV s x)) with ⟨h, e⟩ | ⟨h1, h2, e⟩ <;>
    rw [e]
  · exact .inl ⟨by simpa [bcdDigits, dataAddress] using h, rfl⟩
  · exact .inr ⟨by simp [bcdDigits, dataAddress] at h2; omega, rfl⟩

/-- LD Vx, [I] loads its registers, or a byte is out of range (46 R131). -/
theorem execLdRegs_cases (x : Reg) (s : State) :
    (DataInRange s (x.toNat + 1) ∧ execLdRegs x s =
      .next (advance (setVs s 0 (readBytes s.mem s.i.toNat (x.toNat + 1))))) ∨
    (¬ DataInRange s (x.toNat + 1) ∧ execLdRegs x s =
      raise (.memoryOutOfRange .read (max s.i.toNat s.params.memSize)) s) := by
  unfold execLdRegs DataInRange
  rcases memRead_cases s .read (dataAddress s) (x.toNat + 1) with ⟨h, e⟩ | ⟨h1, h2, e⟩ <;> rw [e]
  · exact .inl ⟨h, rfl⟩
  · exact .inr ⟨by unfold dataAddress at h2; omega, rfl⟩

/-- SKP skips or not by the key, or Vx is no key identifier (45 R120). -/
theorem execSkp_cases (x : Reg) (s : State) :
    (∃ b, keyDown s (getV s x) = .ok b ∧ execSkp x s = .next (skipIf b s)) ∨
    (15 < (getV s x).toNat ∧ s.params.keyOor = .fault ∧
      execSkp x s = raise (.keyIndexOutOfRange (getV s x)) s) := by
  unfold execSkp
  rcases keyDown_cases s (getV s x) with ⟨b, e⟩ | ⟨h1, h2, e⟩
  · exact .inl ⟨b, e, by rw [e]; rfl⟩
  · exact .inr ⟨h1, h2, by rw [e]; rfl⟩

/-- SKNP skips or not by the key, or Vx is no key identifier (45 R121). -/
theorem execSknp_cases (x : Reg) (s : State) :
    (∃ b, keyDown s (getV s x) = .ok b ∧ execSknp x s = .next (skipIf (!b) s)) ∨
    (15 < (getV s x).toNat ∧ s.params.keyOor = .fault ∧
      execSknp x s = raise (.keyIndexOutOfRange (getV s x)) s) := by
  unfold execSknp
  rcases keyDown_cases s (getV s x) with ⟨b, e⟩ | ⟨h1, h2, e⟩
  · exact .inl ⟨b, e, by rw [e]; rfl⟩
  · exact .inr ⟨h1, h2, by rw [e]; rfl⟩

end Sys2Proof.Machine
end

