-- ==== Sys2Proof/Laws/PerInstr.lean ====
section
/-! SUPPORT. The per-instruction family EncodesInTable: the encoded word of every instruction matches its own row of the dispatch table, mnemonic and all (30 R56). -/

/-- The word of i has the bits its row's mask and match give, and the row is in the table. -/
def Sys2Proof.Laws.EncodesInTable.Statement (i : Sys2Proof.Instr) : Prop :=
  i.row ∈ Sys2Proof.opcodeTable ∧ Sys2Proof.encode i &&& i.row.mask = i.row.bits

namespace Sys2Proof.Laws.EncodesInTable

open Sys2Proof

theorem ret : Statement .ret :=
  ⟨by decide, by decide⟩

theorem jp (nnn : Addr12) : Statement (.jp nnn) :=
  ⟨by simp [opcodeTable, Instr.row], by simp [Instr.row, encode, and_F000]⟩

theorem call (nnn : Addr12) : Statement (.call nnn) :=
  ⟨by simp [opcodeTable, Instr.row], by simp [Instr.row, encode, and_F000]⟩

theorem se (x : Reg) (kk : Byte) : Statement (.se x kk) :=
  ⟨by simp [opcodeTable, Instr.row], by simp [Instr.row, encode, and_F000]⟩

theorem sne (x : Reg) (kk : Byte) : Statement (.sne x kk) :=
  ⟨by simp [opcodeTable, Instr.row], by simp [Instr.row, encode, and_F000]⟩

theorem ldImm (x : Reg) (kk : Byte) : Statement (.ldImm x kk) :=
  ⟨by simp [opcodeTable, Instr.row], by simp [Instr.row, encode, and_F000]⟩

theorem addImm (x : Reg) (kk : Byte) : Statement (.addImm x kk) :=
  ⟨by simp [opcodeTable, Instr.row], by simp [Instr.row, encode, and_F000]⟩

theorem ldReg (x : Reg) (y : Reg) : Statement (.ldReg x y) :=
  ⟨by simp [opcodeTable, Instr.row], by simp [Instr.row, encode, and_F00F]⟩

theorem or (x : Reg) (y : Reg) : Statement (.or x y) :=
  ⟨by simp [opcodeTable, Instr.row], by simp [Instr.row, encode, and_F00F]⟩

theorem and (x : Reg) (y : Reg) : Statement (.and x y) :=
  ⟨by simp [opcodeTable, Instr.row], by simp [Instr.row, encode, and_F00F]⟩

theorem xor (x : Reg) (y : Reg) : Statement (.xor x y) :=
  ⟨by simp [opcodeTable, Instr.row], by simp [Instr.row, encode, and_F00F]⟩

theorem add (x : Reg) (y : Reg) : Statement (.add x y) :=
  ⟨by simp [opcodeTable, Instr.row], by simp [Instr.row, encode, and_F00F]⟩

theorem sub (x : Reg) (y : Reg) : Statement (.sub x y) :=
  ⟨by simp [opcodeTable, Instr.row], by simp [Instr.row, encode, and_F00F]⟩

theorem shr (x : Reg) : Statement (.shr x) :=
  ⟨by simp [opcodeTable, Instr.row], by simp [Instr.row, encode, and_F00F]⟩

theorem ldI (nnn : Addr12) : Statement (.ldI nnn) :=
  ⟨by simp [opcodeTable, Instr.row], by simp [Instr.row, encode, and_F000]⟩

theorem rnd (x : Reg) (kk : Byte) : Statement (.rnd x kk) :=
  ⟨by simp [opcodeTable, Instr.row], by simp [Instr.row, encode, and_F000]⟩

theorem drw (x : Reg) (y : Reg) (n : BitVec 4) : Statement (.drw x y n) :=
  ⟨by simp [opcodeTable, Instr.row], by simp [Instr.row, encode, and_F000]⟩

theorem skp (x : Reg) : Statement (.skp x) :=
  ⟨by simp [opcodeTable, Instr.row], by simp [Instr.row, encode, and_F0FF]⟩

theorem sknp (x : Reg) : Statement (.sknp x) :=
  ⟨by simp [opcodeTable, Instr.row], by simp [Instr.row, encode, and_F0FF]⟩

theorem ldVxDt (x : Reg) : Statement (.ldVxDt x) :=
  ⟨by simp [opcodeTable, Instr.row], by simp [Instr.row, encode, and_F0FF]⟩

theorem ldDtVx (x : Reg) : Statement (.ldDtVx x) :=
  ⟨by simp [opcodeTable, Instr.row], by simp [Instr.row, encode, and_F0FF]⟩

theorem ldStVx (x : Reg) : Statement (.ldStVx x) :=
  ⟨by simp [opcodeTable, Instr.row], by simp [Instr.row, encode, and_F0FF]⟩

theorem ldF (x : Reg) : Statement (.ldF x) :=
  ⟨by simp [opcodeTable, Instr.row], by simp [Instr.row, encode, and_F0FF]⟩

theorem ldB (x : Reg) : Statement (.ldB x) :=
  ⟨by simp [opcodeTable, Instr.row], by simp [Instr.row, encode, and_F0FF]⟩

theorem ldRegs (x : Reg) : Statement (.ldRegs x) :=
  ⟨by simp [opcodeTable, Instr.row], by simp [Instr.row, encode, and_F0FF]⟩

end Sys2Proof.Laws.EncodesInTable
end

