-- ==== Sys2Proof/Tests/Slice0.lean ====
section
/-! SUPPORT. Tests on single steps, their expected results from 95_test_vectors.md (the vector's name stands in each comment) or worked out from the rule named, and the witnesses: states and operands that meet the hypotheses of each statement. -/

namespace Sys2Proof.Tests

open Sys2Proof Sys2Proof.Machine

/-! ## Helpers -/

/-- What f reads in the next state, if there is one. -/
def look {α : Type} (f : State → α) : Host.Outcome State Fault Refusal → Option α
  | .next t => some (f t)
  | .fault _ => none
  | .refused _ => none

/-- The reset state with these registers written (index, value) and I set. -/
def withRegs (regs : List (Reg × Byte)) (i : Word := 0) : State :=
  regs.foldl (fun s p => setV s p.1 p.2) { State.reset with i := i }

/-- One step of s on the word w at PC. -/
def stepOn (s : State) (w : Nat) : Host.Outcome State Fault Refusal := step (s.withFetchWord 16 w)

/-- Registers x and y after one step. -/
def regs2 (x y : Reg) (s : State) : Byte × Byte := (getV s x, getV s y)

/-- s with the inputs of its next step given. -/
def withInputs (s : State) (keys : BitVec 16) (rnd : Byte) (collision : Bool) : State :=
  { s with env := [{ stop := false, keys := keys, rnd := rnd, collision := collision }] }

/-- s with its next step's stop input asserted. -/
def stopAsserted (s : State) : State :=
  { s with env := [{ stop := true, keys := 0, rnd := 0, collision := false }] }

/-! ## Well-formedness smoke: each check refuses an ill-formed term -/

theorem test_word_family5_refused : supportedWord 0x5120 = false := by decide
theorem test_word_family9_refused : supportedWord 0x9120 = false := by decide
theorem test_word_familyB_refused : supportedWord 0xB300 = false := by decide
theorem test_word_family8_refused : supportedWord 0x8017 = false := by decide
theorem test_word_familyE_refused : supportedWord 0xE09D = false := by decide
theorem test_word_familyF_refused : supportedWord 0xF00A = false := by decide
theorem test_word_supported : supportedWord 0x80F6 = true := by decide
theorem test_params_small_memory_refused :
    ¬ Params.Ok { defaultParams with memSize := 0x201 } := by decide
theorem test_params_large_memory_refused :
    ¬ Params.Ok { defaultParams with memSize := 65537 } := by decide
theorem test_params_bounds_accepted :
    Params.Ok { defaultParams with memSize := 0x202 } ∧
    Params.Ok { defaultParams with memSize := 65536 } := by decide

/-! ## Decoding: words written out bit by bit from the patterns of 30 R56 and the rules of 41 to 46 -/

theorem test_decode_ret : decodeWord 0b0000000011101110 = some .ret := by decide
theorem test_decode_jp : decodeWord 0b0001_0010_0000_0100 = some (.jp 0x204) := by decide
theorem test_decode_call : decodeWord 0b0010_0010_0000_1100 = some (.call 0x20C) := by decide
theorem test_decode_se : decodeWord 0b0011_1111_0000_0001 = some (.se 0xF 0x01) := by decide
theorem test_decode_sne : decodeWord 0b0100_0011_0001_0001 = some (.sne 0x3 0x11) := by decide
theorem test_decode_ldImm : decodeWord 0b0110_0101_0010_1010 = some (.ldImm 0x5 0x2A) := by
  decide
theorem test_decode_addImm : decodeWord 0b0111_0001_0000_0101 = some (.addImm 0x1 0x05) := by
  decide
theorem test_decode_ldReg : decodeWord 0b1000_0010_0001_0000 = some (.ldReg 0x2 0x1) := by decide
theorem test_decode_or : decodeWord 0b1000_0010_0001_0001 = some (.or 0x2 0x1) := by decide
theorem test_decode_and : decodeWord 0b1000_0010_0001_0010 = some (.and 0x2 0x1) := by decide
theorem test_decode_xor : decodeWord 0b1000_0010_0001_0011 = some (.xor 0x2 0x1) := by decide
theorem test_decode_add : decodeWord 0b1000_0010_0001_0100 = some (.add 0x2 0x1) := by decide
theorem test_decode_sub : decodeWord 0b1000_0010_0001_0101 = some (.sub 0x2 0x1) := by decide
theorem test_decode_shr : decodeWord 0b1000_0010_1001_0110 = some (.shr 0x2) := by decide
theorem test_decode_ldI : decodeWord 0b1010_0010_0000_1010 = some (.ldI 0x20A) := by decide
theorem test_decode_rnd : decodeWord 0b1100_0001_0000_1111 = some (.rnd 0x1 0x0F) := by decide
theorem test_decode_drw : decodeWord 0b1101_0001_0010_0011 = some (.drw 0x1 0x2 0x3) := by decide
theorem test_decode_skp : decodeWord 0b1110_0010_1001_1110 = some (.skp 0x2) := by decide
theorem test_decode_sknp : decodeWord 0b1110_0010_1010_0001 = some (.sknp 0x2) := by decide
theorem test_decode_ldVxDt : decodeWord 0b1111_0011_0000_0111 = some (.ldVxDt 0x3) := by decide
theorem test_decode_ldDtVx : decodeWord 0b1111_0001_0001_0101 = some (.ldDtVx 0x1) := by decide
theorem test_decode_ldStVx : decodeWord 0b1111_0001_0001_1000 = some (.ldStVx 0x1) := by decide
theorem test_decode_ldF : decodeWord 0b1111_0001_0010_1001 = some (.ldF 0x1) := by decide
theorem test_decode_ldB : decodeWord 0b1111_0001_0011_0011 = some (.ldB 0x1) := by decide
theorem test_decode_ldRegs : decodeWord 0b1111_0010_0110_0101 = some (.ldRegs 0x2) := by decide

/-- 95 2.2: the byte at the lower address is the high one. -/
theorem test_decode_byte_order : decode 0x12 0x34 = .ok (.jp 0x234) := by decide
theorem test_decode_refuses_by_name : decode 0x50 0x00 = .error (.unsupportedWord 0x5000) := by
  decide
theorem test_decodeTableWord : decodeTableWord 16 0x8015 = some (.sub 0x0 0x1) := by decide

/-- 30 R61: RET assembles to 0x00EE, SHR with y = 0. -/
theorem test_encode_ignored : encode .ret = 0x00EE ∧ encode (.shr 0x3) = 0x8306 := by decide

/-! ## The step cycle (95 2.1) -/

/-- T1. -/
theorem test_step_ticks : look (fun t => (t.pc, t.dt, t.st, t.status))
    (stepOn { State.reset with dt := 5, st := 1 } 0x8000) =
      some (0x0202, 0x04, 0x00, .running) := by decide
/-- T3: stop wins over an unsupported word, and there is no tick. -/
theorem test_step_stop : look (fun t => (t.pc, t.dt, t.status))
    (stepOn (stopAsserted { State.reset with dt := 5 }) 0x5000) =
      some (0x0200, 0x05, .stopped) := by decide
/-- T4: the fetch faults before the tick. -/
theorem test_step_fetch_fault : look (fun t => (t.pc, t.dt, t.status))
    (step { State.reset with pc := 0x0FFF, dt := 5 }) =
      some (0x0FFF, 0x05, .faulted (.memoryOutOfRange .fetch 0x1000)) := by decide
/-- T6: an odd PC is legal. -/
theorem test_step_odd_pc : look (fun t => (t.pc, getV t 0x1))
    (stepOn { State.reset with pc := 0x0201 } 0x6107) = some (0x0203, 0x07) := by decide
/-- T7: an unsupported word, after the tick. -/
theorem test_step_unsupported : look (fun t => (t.pc, t.dt, t.status))
    (stepOn { State.reset with dt := 3 } 0x9000) =
      some (0x0200, 0x02, .faulted (.unsupportedInstruction 0x9000)) := by decide
/-- 60 R142: the codes of the causes. -/
theorem test_cause_codes : [Cause.unsupportedInstruction 0x5000, .stackOverflow 0, .stackUnderflow 0,
    .memoryOutOfRange .fetch 0x1000, .keyIndexOutOfRange 0x10].map causeCode = [1, 2, 3, 4, 5] := by
  decide
/-- Z2: from reset with nothing placed, the zero word is RET with an empty stack. -/
theorem test_step_from_reset : look (fun t => (t.pc, t.status)) (step State.reset) =
    some (0x0200, .faulted (.stackUnderflow 0x0200)) := by decide

/-! ## Control flow (95 2.3) -/

/-- F7: the entry is kept. -/
theorem test_ret : look (fun t => (t.pc, t.sp, t.stack[1]))
    (stepOn { State.reset with
      pc := 0x210, sp := 1, stack := State.reset.stack.set 1 0x0204 } 0x00EE) = some (0x0206, 0x00, 0x0204) := by decide
/-- F10: the wrap of PC. -/
theorem test_ret_wraps : look (fun t => t.pc)
    (stepOn { State.reset with sp := 1, stack := State.reset.stack.set 1 0xFFFE } 0x00EE) =
      some 0x0000 := by decide
/-- F1. -/
theorem test_jp : look (fun t => t.pc) (stepOn { State.reset with pc := 0x0208 } 0x1204) =
    some 0x0204 := by decide
/-- F5: the fifteenth level. -/
theorem test_call_deepest : look (fun t => (t.pc, t.sp, t.stack[15]))
    (stepOn { State.reset with pc := 0x0300, sp := 14 } 0x2400) =
      some (0x0400, 0x0F, 0x0300) := by decide
/-- F6: the sixteenth call. -/
theorem test_call_overflow : look (fun t => (t.pc, t.sp, t.status))
    (stepOn { State.reset with pc := 0x0300, sp := 15 } 0x2400) =
      some (0x0300, 0x0F, .faulted (.stackOverflow 0x0300)) := by decide
/-- F13, F12. -/
theorem test_se : look (fun t => t.pc) (stepOn (withRegs [(0xF, 0x01)]) 0x3F01) = some 0x0204 ∧
    look (fun t => t.pc) (stepOn (withRegs [(0x0, 0x02)]) 0x3000) = some 0x0202 := by decide
/-- F14, F15. -/
theorem test_sne : look (fun t => t.pc) (stepOn (withRegs [(0x3, 0x10)]) 0x4311) = some 0x0204 ∧
    look (fun t => t.pc) (stepOn (withRegs [(0x3, 0x10)]) 0x4310) = some 0x0202 := by decide

/-! ## Immediate and register-register (95 2.4, 2.5) -/

/-- I2. -/
theorem test_ldImm : look (fun t => (getV t 0xF, t.pc))
    (stepOn (withRegs [(0xF, 0x01)]) 0x6F00) = some (0x00, 0x0202) := by decide
/-- I4: no carry reported. -/
theorem test_addImm : look (regs2 0x0 0xF) (stepOn (withRegs [(0x0, 0xFF), (0xF, 0x07)]) 0x7001) =
    some (0x00, 0x07) := by decide
/-- A1. -/
theorem test_ldReg : look (regs2 0x0 0x1) (stepOn (withRegs [(0x1, 0x3C)]) 0x8010) =
    some (0x3C, 0x3C) := by decide
/-- A2. -/
theorem test_or : look (regs2 0x0 0xF)
    (stepOn (withRegs [(0x0, 0xF0), (0x1, 0x0F), (0xF, 0x01)]) 0x8011) =
      some (0xFF, 0x01) := by decide
/-- A3. -/
theorem test_and : look (regs2 0x0 0xF)
    (stepOn (withRegs [(0x0, 0xF3), (0x1, 0x3C), (0xF, 0x01)]) 0x8012) =
      some (0x30, 0x01) := by decide
/-- A4. -/
theorem test_xor : look (regs2 0x0 0xF)
    (stepOn (withRegs [(0x0, 0xFF), (0x1, 0x0F), (0xF, 0x01)]) 0x8013) =
      some (0xF0, 0x01) := by decide
/-- A6. -/
theorem test_add_carry : look (regs2 0x0 0xF)
    (stepOn (withRegs [(0x0, 0xFF), (0x1, 0x01)]) 0x8014) = some (0x00, 0x01) := by decide
/-- A19, A20: VF as destination and as addend. -/
theorem test_add_vf :
    look (regs2 0xF 0x1) (stepOn (withRegs [(0xF, 0xC8), (0x1, 0x64)]) 0x8F14) =
      some (0x2C, 0x64) ∧
    look (regs2 0x0 0xF) (stepOn (withRegs [(0x0, 0xFF), (0xF, 0x01)]) 0x80F4) =
      some (0x00, 0x01) := by decide
/-- A12: equal operands. -/
theorem test_sub_equal : look (regs2 0x0 0xF)
    (stepOn (withRegs [(0x0, 0x07), (0x1, 0x07), (0xF, 0x01)]) 0x8015) =
      some (0x00, 0x00) := by decide
/-- A22, A25: VF as minuend and as subtrahend, sequential and latched. -/
theorem test_sub_vf :
    look (regs2 0xF 0x1) (stepOn (withRegs [(0xF, 0x05), (0x1, 0x03)]) 0x8F15) =
      some (0xFE, 0x03) ∧
    look (regs2 0x0 0xF) (stepOn (withRegs [(0x0, 0x02), (0xF, 0x03)]) 0x80F5) =
      some (0x02, 0x00) ∧
    look (regs2 0x0 0xF) (stepOn { withRegs [(0x0, 0x02), (0xF, 0x03)] with
      params := { defaultParams with aliasOrder := .latched } } 0x80F5) =
      some (0xFF, 0x00) := by decide
/-- A18: Vy is neither read nor written. -/
theorem test_shr : look (fun t => (getV t 0x0, getV t 0x1, getV t 0xF))
    (stepOn (withRegs [(0x0, 0x04), (0x1, 0xFF)]) 0x8016) = some (0x02, 0xFF, 0x00) := by decide
/-- A27: VF shifted, sequential and latched. -/
theorem test_shr_vf :
    look (fun t => getV t 0xF) (stepOn (withRegs [(0xF, 0x07)]) 0x8F06) = some 0x00 ∧
    look (fun t => getV t 0xF) (stepOn { withRegs [(0xF, 0x07)] with
      params := { defaultParams with aliasOrder := .latched } } 0x8F06) = some 0x03 := by decide

/-! ## Index, random, draw (95 2.6) -/

/-- X1. -/
theorem test_ldI : look (fun t => t.i) (stepOn (withRegs [] 0xFFFF) 0xA300) = some 0x0300 := by
  decide
/-- X3. -/
theorem test_rnd : look (fun t => getV t 0x1)
    (stepOn (withInputs (withRegs [(0x1, 0x55)]) 0 0xB7 false) 0xC10F) = some 0x07 := by decide
/-- X8: coordinates unreduced, the bytes of the default FONT. -/
theorem test_drw : look (fun t => (t.display, getV t 0xF))
    (stepOn (withRegs [(0x0, 0xF0), (0x1, 0xFF)]) 0xD015) =
      some ([{ x := 0xF0, y := 0xFF, rows := [0xF0, 0x90, 0x90, 0x90, 0xF0] }], 0x00) := by decide
/-- X7: the collision bit under DRAW_WRITES_VF. -/
theorem test_drw_collision : look (fun t => getV t 0xF)
    (stepOn (withInputs { State.reset with
      params := { defaultParams with drawWritesVf := true } } 0 0 true) 0xD013) =
      some 0x01 := by decide

/-! ## Keys (95 2.7) -/

/-- K1, K5: the key is the register's value, not the field. -/
theorem test_skp :
    look (fun t => t.pc) (stepOn (withInputs (withRegs [(0x2, 0x05)]) 0x0020 0 false) 0xE29E) =
      some 0x0204 ∧
    look (fun t => t.pc) (stepOn (withInputs (withRegs [(0x3, 0x0A)]) 0x0008 0 false) 0xE39E) =
      some 0x0202 := by decide
/-- K6: the default KEY_OOR. -/
theorem test_skp_fault : look (fun t => (t.pc, t.status)) (stepOn (withRegs [(0x2, 0x10)]) 0xE29E) =
    some (0x0200, .faulted (.keyIndexOutOfRange 0x10)) := by decide
/-- K3, K4. -/
theorem test_sknp :
    look (fun t => t.pc) (stepOn (withInputs (withRegs [(0x2, 0x05)]) 0x0000 0 false) 0xE2A1) =
      some 0x0204 ∧
    look (fun t => t.pc) (stepOn (withInputs (withRegs [(0x2, 0x05)]) 0x0020 0 false) 0xE2A1) =
      some 0x0202 := by decide
/-- K7, K8: not_pressed and mask4. -/
theorem test_key_policies :
    look (fun t => t.pc) (stepOn (withInputs { withRegs [(0x2, 0x10)] with
      params := { defaultParams with keyOor := .notPressed } } 0xFFFF 0 false) 0xE2A1) =
      some 0x0204 ∧
    look (fun t => t.pc) (stepOn (withInputs { withRegs [(0x2, 0x15)] with
      params := { defaultParams with keyOor := .mask4 } } 0x0020 0 false) 0xE29E) =
      some 0x0204 := by decide

/-! ## Timers, font, BCD, register load (95 2.8) -/

/-- M1. -/
theorem test_ldVxDt : look (fun t => (t.dt, getV t 0x3))
    (stepOn { State.reset with dt := 7 } 0xF307) = some (0x06, 0x06) := by decide
/-- M4. -/
theorem test_ldDtVx : look (fun t => t.dt) (stepOn { withRegs [(0x1, 0x07)] with dt := 3 } 0xF115) =
    some 0x07 := by decide
/-- M5, its first step. -/
theorem test_ldStVx : look (fun t => t.st) (stepOn { withRegs [(0x0, 0x03)] with st := 9 } 0xF018) =
    some 0x03 := by decide
/-- M9: no mask. -/
theorem test_ldF : look (fun t => t.i) (stepOn (withRegs [(0x0, 0xFF)]) 0xF029) =
    some 0x04FB := by decide
/-- M10. -/
theorem test_ldB : look (fun t => readBytes t.mem 0x300 3)
    (stepOn (withRegs [(0x0, 0xAB)] 0x0300) 0xF033) = some [0x01, 0x07, 0x01] := by decide
/-- M15: all or nothing. -/
theorem test_ldB_fault : look (fun t => (readByte t.mem 0xFFE, t.pc, t.status))
    (stepOn { withRegs [(0x0, 0x09)] 0x0FFE with mem := [(0xFFE, 0x77)] } 0xF033) =
      some (0x77, 0x0200, .faulted (.memoryOutOfRange .write 0x1000)) := by decide
/-- M16: V3 above x is kept. -/
theorem test_ldRegs : look (fun t => (getV t 0x0, getV t 0x1, getV t 0x2, getV t 0x3, t.i))
    (stepOn { withRegs [(0x3, 0x99)] 0x0300 with
      mem := [(0x300, 0x01), (0x301, 0x07), (0x302, 0x01)] } 0xF265) =
      some (0x01, 0x07, 0x01, 0x99, 0x0300) := by decide
/-- M19: no register is loaded. -/
theorem test_ldRegs_fault : look (fun t => (getV t 0x0, t.status))
    (stepOn (withRegs [(0x0, 0x55)] 0x0FF1) 0xFF65) =
      some (0x55, .faulted (.memoryOutOfRange .read 0x1000)) := by decide

/-! ## Memory and launch -/

/-- Writing the byte an unlisted address reads as removes the entry: equal memories are equal data. -/
theorem test_write_is_canonical :
    writeByte (writeByte [] 0x300 0x07) 0x300 0x00 = [] ∧ writeByte [] 0x000 0xF0 = [] ∧
    writeByte (writeByte [] 0x301 1) 0x300 2 = writeByte (writeByte [] 0x300 2) 0x301 1 := by decide
/-- 93 section 2: glyph F's last byte, and the address after it. -/
theorem test_font : readByte State.reset.mem 0x04F = 0x80 ∧ readByte State.reset.mem 0x050 = 0 ∧
    readByte State.reset.mem 0x032 = 0xF0 := by decide
/-- P5's two ROM bytes at the entry point; nothing else listed. -/
theorem test_loadRom : (loadRom [0x12, 0x00] State.reset).mem = [(0x200, 0x12)] := by decide
/-- Z3: reset from a faulted state keeps memory outside the font. -/
theorem test_applyReset : (fun t => (t.status, t.pc, t.mem))
    (applyReset defaultFont { State.reset with
      status := .faulted (.stackUnderflow 0), pc := 0x300, mem := [(0x10, 0x55), (0x300, 0x07)] }) =
      (.running, 0x0200, [(0x300, 0x07)]) := by decide

/-! ## Witnesses: the hypotheses of each statement are met -/

/-- The reset state with the word w at PC. -/
def at' (w : Nat) : State := State.reset.withFetchWord 16 w

/-- The reset state with I = i. -/
def idx (i : Word) : State := { State.reset with i := i }

theorem witness_DecodedWordReencodes :
    decodeWord 0x0ABC = some .ret ∧ decodeWord 0x83F6 = some (.shr 0x3) := by decide
theorem witness_RowsAreMaskAndMatch :
    (⟨"RET", 0xF000, 0x0000⟩ : OpcodeRow) ∈ opcodeTable ∧ (0x0ABC : Word) &&& 0xF000 = 0x0000 := by
  decide
theorem witness_WordIsHighThenLow :
    let s := { State.reset with pc := 0x0FFE }
    s.pc.toNat + 2 ≤ s.params.memSize ∧
    (match fetch (at' 0x1234) with | .ok p => some p | .error _ => none) = some (0x12, 0x34) ∧
    decode 0x12 0x34 = .ok (.jp 0x234) ∧
    decode 0x50 0x12 = .error (.unsupportedWord 0x5012) := by decide
theorem witness_StepRunsDecodedInstruction :
    Ready (at' 0x60FF) ∧ decode (readByte (at' 0x60FF).mem (at' 0x60FF).pc.toNat)
      (readByte (at' 0x60FF).mem ((at' 0x60FF).pc.toNat + 1)) = .ok (.ldImm 0x0 0xFF) := by decide
theorem witness_StopInputStopsTheRun :
    (stopAsserted State.reset).status = .running ∧
    (inputs (stopAsserted State.reset)).stop = true := by decide
theorem witness_FetchOutOfRangeFaults :
    let s := { State.reset with pc := 0x0FFF }
    let u := { State.reset with pc := 0x1000 }
    (s.status = .running ∧ (inputs s).stop = false ∧ s.params.memSize < s.pc.toNat + 2 ∧
      s.pc.toNat < s.params.memSize) ∧
    (u.status = .running ∧ (inputs u).stop = false ∧ u.params.memSize < u.pc.toNat + 2 ∧
      u.params.memSize ≤ u.pc.toNat) := by decide
theorem witness_UnsupportedWordFaults :
    Ready (at' 0x5000) ∧ decodeWord (wordAtPc (at' 0x5000)) = none := by decide
theorem witness_TerminalStatusHasNoStep :
    ({ State.reset with status := .stopped } : State).status = .stopped ∧
    ({ State.reset with status := .faulted (.stackUnderflow 0) } : State).status =
      .faulted (.stackUnderflow 0) := by decide
theorem witness_RunningMachineAlwaysSteps : State.reset.status = .running := by decide
theorem witness_TimersTickInEveryStep :
    Ready (at' 0x8000) ∧ look (fun _ => ()) (step (at' 0x8000)) = some () ∧
    decodeWord (wordAtPc (at' 0x8000)) = some (.ldReg 0x0 0x0) ∧
    Ready (at' 0x5000) ∧ look (fun _ => ()) (step (at' 0x5000)) = some () := by decide
theorem witness_CallPushesItsOwnAddress :
    State.reset.sp.toNat < 15 ∧ ({ State.reset with sp := 14 } : State).sp.toNat < 15 := by decide
theorem witness_RetPopsAndAddsTwo :
    let s := { State.reset with sp := 15 }
    let u := { State.reset with sp := 16 }
    (s.sp ≠ 0 ∧ s.sp.toNat < 16) ∧ u.sp ≠ 0 ∧ ¬ u.sp.toNat < 16 := by decide
theorem witness_StackLimitsFault :
    15 ≤ ({ State.reset with sp := 15 } : State).sp.toNat ∧ State.reset.sp = 0 := by decide
theorem witness_CallThenRetRoundTrip :
    let s := { at' 0x2300 with sp := 14 }
    Ready s ∧ decodeWord (wordAtPc s) = some (.call 0x300) ∧ s.sp.toNat < 15 ∧
    (inputs (endStep s)).stop = false ∧ (0x300 : Addr12).toNat + 2 ≤ s.params.memSize ∧
    decodeWord (wordOf (readByte s.mem 0x300) (readByte s.mem 0x301)) = some .ret := by decide
theorem witness_OtherInstructionsAdvanceByTwo :
    State.reset.status = .running ∧
    look (fun t => t.status) (exec (.addImm 0x0 0x01) State.reset) = some .running := by decide
theorem witness_SubSetsStrictlyGreater : (0x0 : Reg) ≠ Reg.vf ∧ (0xE : Reg) ≠ Reg.vf := by decide
theorem witness_ShrHalvesAndKeepsTheBit : (0xE : Reg) ≠ Reg.vf := by decide
theorem witness_VfOperandTable : (0x1 : Reg) ≠ Reg.vf ∧
    State.reset.params.aliasOrder = .sequential ∧
    ({ State.reset with params := { defaultParams with aliasOrder := .latched } } :
      State).params.aliasOrder = .latched := by decide
theorem witness_DecodesAs : (0x1FFF : Word) &&& 0xF000 = 0x1000 ∧
    (0x8F04 : Word) &&& 0xF00F = 0x8004 ∧ (0xFF07 : Word) &&& 0xF0FF = 0xF007 := by decide
theorem witness_JpSetsPc : (0x1FFF : Word) &&& 0xF000 = 0x1000 := by decide
theorem witness_SkipsCompareWithImmediate :
    (0x3FFF : Word) &&& 0xF000 = 0x3000 ∧ (0x4FFF : Word) &&& 0xF000 = 0x4000 := by decide
theorem witness_LdImmWritesKk : (0x6FFF : Word) &&& 0xF000 = 0x6000 := by decide
theorem witness_AddImmWrapsWithoutFlag : (0x7FFF : Word) &&& 0xF000 = 0x7000 := by decide
theorem witness_LdRegCopiesVy : (0x8FF0 : Word) &&& 0xF00F = 0x8000 := by decide
theorem witness_AddSetsCarry :
    (0x8FF4 : Word) &&& 0xF00F = 0x8004 ∧ (0xE : Reg) ≠ Reg.vf := by decide
theorem witness_LdISetsIndex : (0xAFFF : Word) &&& 0xF000 = 0xA000 := by decide
theorem witness_LdFMultipliesByFive : (0xFF29 : Word) &&& 0xF0FF = 0xF029 := by decide
theorem witness_DrwSendsOneCommand : DataInRange (idx 0x0FFF) (0x0 : BitVec 4).toNat ∧
    DataInRange (idx 0x0FF1) (0xF : BitVec 4).toNat ∧ DataInRange (idx 0xFFFF) 0 := by decide
theorem witness_DataAccessOutOfRangeFaults :
    ¬ DataInRange (idx 0x0FF2) (0xF : BitVec 4).toNat ∧ ¬ DataInRange (idx 0x0FFE) 3 ∧
    ¬ DataInRange (idx 0x0FF1) ((0xF : Reg).toNat + 1) ∧ ¬ DataInRange (idx 0x1000) 1 := by decide
theorem witness_KeySkipsFollowTheKey :
    (getV (withRegs [(0x2, 0x0F)]) 0x2).toNat ≤ 15 ∧ (getV (withRegs []) 0x2).toNat ≤ 15 := by
  decide
theorem witness_KeyIdentifierAboveFifteen :
    15 < (getV (withRegs [(0x2, 0x10)]) 0x2).toNat ∧
    15 < (getV (withRegs [(0x2, 0xFF)]) 0x2).toNat ∧
    (withRegs [(0x2, 0x10)]).params.keyOor = .fault ∧
    ({ withRegs [(0x2, 0x10)] with params := { defaultParams with keyOor := .notPressed } } :
      State).params.keyOor = .notPressed ∧
    ({ withRegs [(0x2, 0x10)] with params := { defaultParams with keyOor := .mask4 } } :
      State).params.keyOor = .mask4 := by decide
theorem witness_LdVxDtReadsTheTickedTimer :
    Ready (at' 0xF307) ∧ decodeWord (wordAtPc (at' 0xF307)) = some (.ldVxDt 0x3) := by decide
theorem witness_TimerLoadsWriteVx :
    (Ready (at' 0xF115) ∧ decodeWord (wordAtPc (at' 0xF115)) = some (.ldDtVx 0x1)) ∧
    Ready (at' 0xF118) ∧ decodeWord (wordAtPc (at' 0xF118)) = some (.ldStVx 0x1) := by decide
theorem witness_LdBStoresDecimalDigits :
    (idx 0x0FFD).i.toNat + 3 ≤ (idx 0x0FFD).params.memSize := by decide
theorem witness_LdRegsLoadsInclusiveRange :
    (idx 0x0FF0).i.toNat + (0xF : Reg).toNat + 1 ≤ (idx 0x0FF0).params.memSize := by decide
theorem witness_FetchSeesStoredBytes :
    let s := { at' 0xF033 with i := 0x0202 }
    Ready s ∧ decodeWord (wordAtPc s) = some (.ldB 0x0) ∧ s.i.toNat + 3 ≤ s.params.memSize ∧
    look (fun t => decide (t.pc.toNat + 2 ≤ s.params.memSize)) (step s) = some true := by decide
theorem witness_FaultsHaveNoOtherEffect : State.reset.status = .running ∧
    look (fun t => t.status) (exec .ret State.reset) =
      some (.faulted (.stackUnderflow 0x0200)) := by decide
theorem witness_FaultsRaisedByEachInstruction :
    look (fun t => t.status) (exec (.call 0x300) { State.reset with sp := 15 }) =
      some (.faulted (.stackOverflow 0x0200)) ∧
    look (fun t => t.status) (exec (.drw 0 0 2) (idx 0x0FFF)) =
      some (.faulted (.memoryOutOfRange .read 0x1000)) ∧
    look (fun t => t.status) (exec (.ldB 0) (idx 0x1001)) =
      some (.faulted (.memoryOutOfRange .write 0x1001)) ∧
    look (fun t => t.status) (exec (.ldRegs 0) (idx 0x1000)) =
      some (.faulted (.memoryOutOfRange .read 0x1000)) ∧
    look (fun t => t.status) (exec (.sknp 2) (withRegs [(0x2, 0x10)])) =
      some (.faulted (.keyIndexOutOfRange 0x10)) := by decide
theorem witness_OnlyLdBWritesMemory : look (fun _ => ()) (step (at' 0xF065)) = some () ∧
    decodeWord (wordAtPc (at' 0xF065)) = some (.ldRegs 0x0) := by decide
theorem witness_WritersOfIndexStackAndDisplay :
    look (fun _ => ()) (exec (.jp 0x300) State.reset) = some () ∧
    look (fun _ => ()) (exec .ret State.reset) = some () := by decide
theorem witness_WritersOfVf :
    look (fun t => decide (getV t Reg.vf ≠ getV State.reset Reg.vf))
      (exec (.ldImm Reg.vf 0x01) State.reset) = some true := by decide
theorem witness_InputsAreReadOnlyWhereListed :
    State.reset.sp.toNat < 16 ∧ State.reset.params.drawWritesVf = false := by decide
theorem witness_StepKeepsInvariant :
    Inv State.reset ∧ look (fun _ => ()) (step State.reset) = some () :=
  ⟨⟨by decide, by decide, by decide, by decide, by decide, by decide, by decide⟩, by decide⟩
theorem witness_ResetMeetsInvariant : Params.Ok defaultParams := by decide
theorem witness_StepKeepsMemoryCanonical :
    Memory.wf (at' 0xF033).mem ∧ look (fun _ => ()) (step (at' 0xF033)) = some () := by decide
theorem witness_CanonicalMemoriesAreEqualData :
    Memory.wf (at' 0xF033).mem ∧
    Memory.wf (writeByte (writeByte [] 0x201 0x33) 0x200 0xF0) ∧
    (at' 0xF033).mem = writeByte (writeByte [] 0x201 0x33) 0x200 0xF0 := by decide
theorem witness_ResetMemoryHoldsTheDefaults :
    ((15 : Nat) < 16 ∧ (4 : Nat) < 5) ∧ (80 : Nat) ≤ 80 := by decide
theorem witness_ApplyResetFromAnyState : defaultFont.length = 80 := by decide
theorem witness_LaunchStateMemory : Params.Ok defaultParams ∧ defaultFont.length = 80 ∧
    0x200 + [(0x12 : Byte), 0x00].length ≤ defaultParams.memSize := by decide

end Sys2Proof.Tests
end

section
/-! The statements about memory (20 R39, R45): a read after a write, and the fetch after an LD B. -/

namespace Sys2Proof.Machine

/-- With both bytes at PC in memory the fetch hands them over (40 R72). -/
theorem fetch_of_inRange {s : State} (h : s.pc.toNat + 2 ≤ s.params.memSize) :
    fetch s = .ok (readByte s.mem s.pc.toNat, readByte s.mem (s.pc.toNat + 1)) := by
  rcases fetch_cases s with ⟨-, hf⟩ | ⟨hout, -⟩
  · exact hf
  · omega

/-- With its three bytes in memory LD B stores the digits at I and advances (46 R130). -/
theorem exec_ldB_of_inRange {x : Reg} {s : State} (h : DataInRange s 3) :
    exec (.ldB x) s = .next (advance
      { s with mem := writeBytes s.mem s.i.toNat (bcdDigits (getV s x)) }) := by
  rcases execLdB_cases x s with ⟨-, he⟩ | ⟨hout, -⟩
  · exact he
  · exact absurd h hout

/-- A ready machine's step at an LD B whose three bytes are in memory: the tick, the store, the
advance, and the end of the step (40 R70). -/
theorem step_ldB_of_inRange {x : Reg} {s : State} (hr : Ready s)
    (hd : decodeWord (wordAtPc s) = some (.ldB x)) (h : DataInRange s 3) :
    step s = .next (endStep (advance
      { tick s with mem := writeBytes s.mem s.i.toNat (bcdDigits (getV s x)) })) := by
  rw [step_of_ready hr hd, exec_ldB_of_inRange (s := tick s) h]
  rfl

/-- Settles O40: the read at the written address and the read at every other one. -/
theorem readAfterWrite : Obligations.ReadAfterWrite := by
  intro m a c b
  by_cases h : c = a
  · rw [if_pos h, h, readByte_writeByte_same]
  · rw [if_neg h, readByte_writeByte_other m b h]

/-- Settles O41: the fetch reads the memory of the state it starts from, and LD B's step leaves
there what writing its three digits leaves. -/
theorem fetchSeesStoredBytes : Obligations.FetchSeesStoredBytes := by
  intro x s t hready hdecode hstore hstep hpc
  have hnext := step_ldB_of_inRange hready hdecode (.inr hstore)
  obtain rfl := Host.Outcome.next.inj (hstep.symm.trans hnext)
  exact ⟨fetch_of_inRange hpc,
    fun a => readByte_writeBytes s.mem s.i.toNat a (bcdDigits (getV s x))⟩

end Sys2Proof.Machine
end

section
/-! The statement about the instruction word (30 R51): the bytes fetched, the decoder's answer, and the bits of hi : lo. -/

namespace Sys2Proof.Machine

/-- The bytes a fetch hands over are the two bytes wordAtPc reads, in the same order (30 R51). -/
theorem wordAtPc_of_fetch {s : State} {hi lo : Byte} (h : fetch s = .ok (hi, lo)) :
    wordAtPc s = wordOf hi lo := by
  rcases fetch_cases s with ⟨-, hf⟩ | ⟨-, hf⟩
  · obtain ⟨rfl, rfl⟩ := Prod.mk.inj (Except.ok.inj (hf.symm.trans h))
    rfl
  · cases hf.symm.trans h

/-- The decoder answers an instruction exactly when the dispatch has it for hi : lo (30 R53). -/
theorem decode_eq_ok_iff (hi lo : Byte) (i : Instr) :
    decode hi lo = .ok i ↔ decodeWord (wordOf hi lo) = some i := by
  rcases decode_cases hi lo with ⟨j, hw, hd⟩ | ⟨hw, hd⟩
  · simp [hw, hd]
  · simp [hw, hd]

/-- The decoder refuses exactly the words without a row, and names hi : lo (30 R57). -/
theorem decode_eq_error_iff (hi lo : Byte) (w : Word) :
    decode hi lo = .error (.unsupportedWord w) ↔
      decodeWord (wordOf hi lo) = none ∧ w = wordOf hi lo := by
  rcases decode_cases hi lo with ⟨j, hw, hd⟩ | ⟨hw, hd⟩
  · simp [hw, hd]
  · simp [hw, hd, eq_comm]

/-- Settles O5: the fetch's two answers, the decoder's two answers, and the bits of hi : lo as
those of an append with lo below. -/
theorem wordIsHighThenLow : Obligations.WordIsHighThenLow :=
  ⟨fun _ => fetch_of_inRange, fun _ _ _ => wordAtPc_of_fetch, decode_eq_ok_iff,
    decode_eq_error_iff, fun _ _ _ => BitVec.getLsbD_append⟩

end Sys2Proof.Machine
end

section
/-! The statement about the advance of PC (40 R75): an instruction that neither skips nor transfers control advances, or faults where it stands. -/

namespace Sys2Proof.Machine

/-- The instructions of 40 R75: all but the transfers RET, JP, CALL and the skips SE, SNE, SKP, SKNP. -/
def NeitherSkipsNorTransfers (i : Instr) : Prop :=
  i ≠ .ret ∧ (∀ a, i ≠ .jp a) ∧ (∀ a, i ≠ .call a) ∧ (∀ x k, i ≠ .se x k) ∧
    (∀ x k, i ≠ .sne x k) ∧ (∀ x, i ≠ .skp x) ∧ ∀ x, i ≠ .sknp x

@[simp] theorem collisionToVf_pc (s : State) : (collisionToVf s).pc = s.pc := by
  rw [collisionToVf_frame]

@[simp] theorem setVs_pc (s : State) (k : Nat) (bs : List Byte) : (setVs s k bs).pc = s.pc := by
  rw [setVs_frame]

/-- Everything such an instruction can do to PC: it advances from a state whose PC is still its own
address, or it raises. Only the three that access memory can raise (60 R150). -/
theorem exec_advances_or_raises {i : Instr} (hi : NeitherSkipsNorTransfers i) (s : State) :
    (∃ u, exec i s = .next (advance u) ∧ u.pc = s.pc) ∨ ∃ c, exec i s = raise c s := by
  obtain ⟨hret, hjp, hcall, hse, hsne, hskp, hsknp⟩ := hi
  cases i with
  | ret => exact absurd rfl hret
  | jp a => exact absurd rfl (hjp a)
  | call a => exact absurd rfl (hcall a)
  | se x k => exact absurd rfl (hse x k)
  | sne x k => exact absurd rfl (hsne x k)
  | skp x => exact absurd rfl (hskp x)
  | sknp x => exact absurd rfl (hsknp x)
  | ldImm | addImm | ldReg | or | and | xor | add | sub | shr | ldI | rnd | ldVxDt | ldDtVx
  | ldStVx | ldF => exact .inl ⟨_, rfl, rfl⟩
  | drw x y n =>
    rcases execDrw_cases x y n s with ⟨-, he⟩ | ⟨-, he⟩
    · exact .inl ⟨_, he, by simp⟩
    · exact .inr ⟨_, he⟩
  | ldB x =>
    rcases execLdB_cases x s with ⟨-, he⟩ | ⟨-, he⟩
    · exact .inl ⟨_, he, rfl⟩
    · exact .inr ⟨_, he⟩
  | ldRegs x =>
    rcases execLdRegs_cases x s with ⟨-, he⟩ | ⟨-, he⟩
    · exact .inl ⟨_, he, by simp⟩
    · exact .inr ⟨_, he⟩

/-- What raises leaves no running machine (60 R141). -/
theorem not_running_of_raise {c : Cause} {s t : State} (h : raise c s = .next t) :
    t.status ≠ .running := by
  obtain rfl := Host.Outcome.next.inj h
  exact Status.noConfusion

/-- Settles O20: such an instruction advances or raises, and a raise is excluded by the status. -/
theorem otherInstructionsAdvanceByTwo : Obligations.OtherInstructionsAdvanceByTwo := by
  intro i s t _ hexec hrunning hi
  rcases exec_advances_or_raises hi s with ⟨u, hu, hpc⟩ | ⟨c, hc⟩
  · obtain rfl := Host.Outcome.next.inj (hexec.symm.trans hu)
    rw [advance_eq, setPc_pc, hpc, BitVec.toNat_add]
    rfl
  · exact absurd hrunning (not_running_of_raise (hc.symm.trans hexec))

end Sys2Proof.Machine
end

section
/-! The statements about the jump and the immediate skips (41 R81, R83, R84): the rows whose mask is 0xF000, and instructions that write PC and nothing else. -/

namespace Sys2Proof.Machine

/-- A row whose mask is 0xF000 is decoded by the leading nibble of its match alone (30 R55, R56). -/
theorem decodesAs_of_opField {bits : Word} {f : Word → Instr}
    (h : ∀ w, opField w = opField bits → decodeWord w = some (f w)) : DecodesAs 0xF000 bits f :=
  fun w hw => h w (opField_of_and_F000 hw)

/-- The dispatch on leading nibble 1 (30 R55). -/
theorem decodeWord_of_opField_1 {w : Word} (h : opField w = 0x1) :
    decodeWord w = some (.jp (nnnField w)) := by
  rw [decodeWord, h]
  rfl

/-- The dispatch on leading nibble 3 (30 R55). -/
theorem decodeWord_of_opField_3 {w : Word} (h : opField w = 0x3) :
    decodeWord w = some (.se (xField w) (kkField w)) := by
  rw [decodeWord, h]
  rfl

/-- The dispatch on leading nibble 4 (30 R55). -/
theorem decodeWord_of_opField_4 {w : Word} (h : opField w = 0x4) :
    decodeWord w = some (.sne (xField w) (kkField w)) := by
  rw [decodeWord, h]
  rfl

/-- JP writes PC from its zero-extended operand (41 R81). -/
theorem exec_jp (nnn : Addr12) (s : State) : exec (.jp nnn) s = .next (setPc s (target nnn)) := rfl

/-- SE skips on equality (41 R83). -/
theorem exec_se (x : Reg) (kk : Byte) (s : State) :
    exec (.se x kk) s = .next (skipIf (decide (getV s x = kk)) s) := rfl

/-- SNE skips on inequality (41 R84). -/
theorem exec_sne (x : Reg) (kk : Byte) (s : State) :
    exec (.sne x kk) s = .next (skipIf (decide (getV s x ≠ kk)) s) := rfl

/-- The zero extension keeps the address (30 R54). -/
@[simp] theorem toNat_target (nnn : Addr12) : (target nnn).toNat = nnn.toNat :=
  BitVec.toNat_setWidth_of_le (by decide)

/-- A write of PC is within the frame that allows no other write (10 R15). -/
theorem frame_setPc (s : State) (w : Word) : Frame {} s (setPc s w) where
  regs _ _ := rfl
  index _ := rfl
  stack _ := ⟨rfl, rfl⟩
  dt _ := rfl
  st _ := rfl
  mem _ _ := rfl
  display _ := rfl
  status := rfl
  params := rfl
  env := rfl
  draws := rfl

/-- A skip writes PC alone, whether it is taken or not (40 R76). -/
theorem frame_skipIf (c : Bool) (s : State) : Frame {} s (skipIf c s) := frame_setPc s _

/-- Where a skip on a decided condition leads (40 R76). -/
theorem skipIf_decide_pc (p : Prop) [Decidable p] (s : State) :
    (skipIf (decide p) s).pc = if p then s.pc + 4 else s.pc + 2 := by
  by_cases h : p <;> simp [h]

/-- Settles O14: leading nibble 1 decodes to JP, and JP is one write of PC. -/
theorem jpSetsPc : Obligations.JpSetsPc :=
  ⟨decodesAs_of_opField fun _ => decodeWord_of_opField_1,
    fun nnn s => ⟨_, exec_jp nnn s, toNat_target nnn, frame_setPc s _⟩⟩

/-- Settles O18: leading nibbles 3 and 4 decode to SE and SNE, and both are one skip, SNE's on the
negated condition. -/
theorem skipsCompareWithImmediate : Obligations.SkipsCompareWithImmediate := by
  refine ⟨decodesAs_of_opField fun _ => decodeWord_of_opField_3,
    decodesAs_of_opField fun _ => decodeWord_of_opField_4, fun x kk s => ⟨?se, ?sne⟩⟩
  case se => exact ⟨_, exec_se x kk s, skipIf_decide_pc _ s, frame_skipIf _ s⟩
  case sne =>
    have hpc := (skipIf_decide_pc (getV s x ≠ kk) s).trans (ite_not ..)
    exact ⟨_, exec_sne x kk s, hpc, frame_skipIf _ s⟩

end Sys2Proof.Machine
end

section
/-! The statements about the register-immediate instructions (42 R90, R91): the leading nibbles 6 and 7, and meanings that write one register and advance. -/

namespace Sys2Proof.Machine

/-- The dispatch on leading nibble 6 (30 R55). -/
theorem decodeWord_of_opField_6 {w : Word} (h : opField w = 0x6) :
    decodeWord w = some (.ldImm (xField w) (kkField w)) := by
  rw [decodeWord, h]
  rfl

/-- The dispatch on leading nibble 7 (30 R55). -/
theorem decodeWord_of_opField_7 {w : Word} (h : opField w = 0x7) :
    decodeWord w = some (.addImm (xField w) (kkField w)) := by
  rw [decodeWord, h]
  rfl

/-- LD Vx, KK writes its immediate to Vx and advances (42 R90). -/
theorem exec_ldImm (x : Reg) (kk : Byte) (s : State) :
    exec (.ldImm x kk) s = .next (advance (setV s x kk)) := rfl

/-- ADD Vx, KK writes the 8-bit sum to Vx and advances (42 R91). -/
theorem exec_addImm (x : Reg) (kk : Byte) (s : State) :
    exec (.addImm x kk) s = .next (advance (setV s x (getV s x + kk))) := rfl

/-- The register just written, read behind the advance (10 R10). -/
theorem getV_advance_setV_same (s : State) (x : Reg) (b : Byte) :
    getV (advance (setV s x b)) x = b := by
  rw [advance_eq, setPc_getV, getV_setV, if_pos rfl]

/-- The advance of an instruction that wrote one register counts from its own address (40 R75). -/
theorem advance_setV_pc (s : State) (x : Reg) (b : Byte) :
    (advance (setV s x b)).pc = s.pc + 2 := rfl

/-- A write of Vx and an advance touch nothing but Vx and PC: VF stays where x is not 15 (42 R90, R91). -/
theorem frame_advance_setV (s : State) (x : Reg) (b : Byte) :
    Frame { regs := [x] } s (advance (setV s x b)) where
  regs r hr := by
    have hne : r ≠ x := fun h => hr (List.mem_singleton.2 h)
    rw [advance_eq, setPc_getV, getV_setV, if_neg hne]
  index _ := rfl
  stack _ := ⟨rfl, rfl⟩
  dt _ := rfl
  st _ := rfl
  mem _ _ := rfl
  display _ := rfl
  status := rfl
  params := rfl
  env := rfl
  draws := rfl

/-- Settles O21: leading nibble 6 decodes to LD Vx, KK, which is one register write and the advance. -/
theorem ldImmWritesKk : Obligations.LdImmWritesKk :=
  ⟨decodesAs_of_opField fun _ => decodeWord_of_opField_6, fun x kk s =>
    ⟨_, exec_ldImm x kk s, getV_advance_setV_same s x kk, advance_setV_pc s x kk,
      frame_advance_setV s x kk⟩⟩

/-- Settles O22: leading nibble 7 decodes to ADD Vx, KK, which is one register write, of the sum of
two bit vectors and so modulo 256, and the advance; no second write is there for a flag. -/
theorem addImmWrapsWithoutFlag : Obligations.AddImmWrapsWithoutFlag := by
  refine ⟨decodesAs_of_opField fun _ => decodeWord_of_opField_7, fun x kk s => ?_⟩
  have hsum : (getV (advance (setV s x (getV s x + kk))) x).toNat
      = ((getV s x).toNat + kk.toNat) % 256 := by
    rw [getV_advance_setV_same, BitVec.toNat_add]
  exact ⟨_, exec_addImm x kk s, hsum, advance_setV_pc s x _, frame_advance_setV s x _⟩

end Sys2Proof.Machine
end

section
/-! The statements about family 0x8 outside the bitwise rows and R103's table (43 R96, R100 to R102): the sub-key n, and meanings that write VF, then Vx, and advance. -/

namespace Sys2Proof.Machine

/-- A row of family 0x8 is decoded by the sub-key of its match alone (30 R55, R56). -/
theorem decodesAs_of_nField {bits : Word} {f : Word → Instr} (hop : opField bits = 0x8)
    (h : ∀ w, nField w = nField bits → decodeFamily8 w = some (f w)) :
    DecodesAs 0xF00F bits f := by
  intro w hw
  obtain ⟨hopw, hn⟩ := fields_of_and_F00F hw
  rw [decodeWord, hopw, hop]
  exact h w hn

/-- Sub-key 0 of family 0x8 (30 R55). -/
theorem decodeFamily8_of_nField_0 {w : Word} (h : nField w = 0x0) :
    decodeFamily8 w = some (.ldReg (xField w) (yField w)) := by
  rw [decodeFamily8, h]
  rfl

/-- Sub-key 4 of family 0x8 (30 R55). -/
theorem decodeFamily8_of_nField_4 {w : Word} (h : nField w = 0x4) :
    decodeFamily8 w = some (.add (xField w) (yField w)) := by
  rw [decodeFamily8, h]
  rfl

/-- Sub-key 5 of family 0x8 (30 R55). -/
theorem decodeFamily8_of_nField_5 {w : Word} (h : nField w = 0x5) :
    decodeFamily8 w = some (.sub (xField w) (yField w)) := by
  rw [decodeFamily8, h]
  rfl

/-- Sub-key 6 of family 0x8 (30 R55). -/
theorem decodeFamily8_of_nField_6 {w : Word} (h : nField w = 0x6) :
    decodeFamily8 w = some (.shr (xField w)) := by
  rw [decodeFamily8, h]
  rfl

/-- A flag from a condition, as the statements write it (10 R12). -/
theorem flagByte_decide (p : Prop) [Decidable p] :
    flagByte (decide p) = if p then 0x01 else 0x00 := by
  simp only [flagByte, decide_eq_true_eq]

/-- The bit shifted out is the parity (43 R102). -/
theorem toNat_shiftedOut (a : Byte) : (shiftedOut a).toNat = a.toNat % 2 := by
  rw [shiftedOut, BitVec.toNat_and]
  exact Nat.and_one_is_mod _

/-- The 8-bit difference, with the borrow added before the subtraction (43 R101). -/
theorem toNat_byte_sub (a b : Byte) : (a - b).toNat = (256 + a.toNat - b.toNat) % 256 := by
  have hb : b.toNat < 256 := b.isLt
  rw [BitVec.toNat_sub]
  omega

/-- A register other than the one just written, read behind the advance (10 R10). -/
theorem getV_advance_setV_other (s : State) {x r : Reg} (b : Byte) (h : r ≠ x) :
    getV (advance (setV s x b)) r = getV s r := by
  rw [advance_eq, setPc_getV, getV_setV, if_neg h]

/-- The flag stays under the write of Vx when Vx is not VF (43 R100 to R102). -/
theorem getV_vf_advance_setV_setVf (s : State) {x : Reg} (f b : Byte) (h : x ≠ Reg.vf) :
    getV (advance (setV (setVf s f) x b)) Reg.vf = f := by
  rw [getV_advance_setV_other _ b h.symm, setVf_eq, getV_setV, if_pos rfl]

/-- The writes of VF and Vx and the advance touch nothing but VF, Vx and PC (43 R100 to R102). -/
theorem frame_advance_setV_setVf (s : State) (x : Reg) (f b : Byte) :
    Frame { regs := [x, Reg.vf] } s (advance (setV (setVf s f) x b)) where
  __ := frame_advance_setV (setVf s f) x b
  regs r hr := by
    obtain ⟨hx, hvf⟩ : r ≠ x ∧ r ≠ Reg.vf := by simpa using hr
    rw [getV_advance_setV_other _ b hx, setVf_eq, getV_setV, if_neg hvf]

/-- A register other than VF reads the same before and after the flag is written, so ALIAS_ORDER
makes no difference there (43 R103). -/
theorem getV_secondReads_setVf (s : State) {r : Reg} (f : Byte) (h : r ≠ Reg.vf) :
    getV (secondReads s (setVf s f)) r = getV s r := by
  rw [secondReads]
  cases s.params.aliasOrder with
  | sequential => exact (getV_setV s Reg.vf r f).trans (if_neg h)
  | latched => rfl

/-- LD Vx, Vy writes Vy as it was to Vx and advances (43 R96). -/
theorem exec_ldReg (x y : Reg) (s : State) :
    exec (.ldReg x y) s = .next (advance (setV s x (getV s y))) := rfl

/-- ADD Vx, Vy writes the carry, then the sum, both of the operands as they were (43 R100). -/
theorem exec_add (x y : Reg) (s : State) :
    exec (.add x y) s = .next (advance
      (setV (setVf s (carryFlag (getV s x) (getV s y))) x (getV s x + getV s y))) := rfl

/-- SUB Vx, Vy where neither is VF: the flag, then the difference of the operands as they were (43 R101). -/
theorem exec_sub_of_ne_vf {x y : Reg} (s : State) (hx : x ≠ Reg.vf) (hy : y ≠ Reg.vf) :
    exec (.sub x y) s = .next (advance
      (setV (setVf s (greaterFlag (getV s x) (getV s y))) x (getV s x - getV s y))) := by
  rw [exec, execSub, getV_secondReads_setVf s _ hx, getV_secondReads_setVf s _ hy]

/-- SHR Vx where x is not VF: the bit shifted out, then the half of Vx as it was (43 R102). -/
theorem exec_shr_of_ne_vf {x : Reg} (s : State) (hx : x ≠ Reg.vf) :
    exec (.shr x) s = .next (advance
      (setV (setVf s (shiftedOut (getV s x))) x (getV s x >>> 1))) := by
  rw [exec, execShr, getV_secondReads_setVf s _ hx]

/-- Settles O25: sub-key 4 decodes to ADD Vx, Vy, which writes the carry and then the sum of two
bit vectors, so the flag is left where x is not 15 and the sum where it is. -/
theorem addSetsCarry : Obligations.AddSetsCarry := by
  refine ⟨decodesAs_of_nField rfl fun _ => decodeFamily8_of_nField_4, fun x y s =>
    ⟨_, exec_add x y s, ?sum, fun hx => ?carry, rfl, frame_advance_setV_setVf s x _ _⟩⟩
  case sum => rw [getV_advance_setV_same, BitVec.toNat_add]
  case carry => rw [getV_vf_advance_setV_setVf s _ _ hx, carryFlag, flagByte_decide]

/-- Settles O26: sub-key 5 decodes to SUB Vx, Vy; neither operand is VF, so the flag's write is not
seen by the subtraction, and Vx's write does not touch the flag. -/
theorem subSetsStrictlyGreater : Obligations.SubSetsStrictlyGreater := by
  refine ⟨decodesAs_of_nField rfl fun _ => decodeFamily8_of_nField_5, fun x y s hx hy =>
    ⟨_, exec_sub_of_ne_vf s hx hy, ?difference, ?flag, rfl, frame_advance_setV_setVf s x _ _⟩⟩
  case difference => rw [getV_advance_setV_same, toNat_byte_sub]
  case flag => rw [getV_vf_advance_setV_setVf s _ _ hx, greaterFlag, flagByte_decide]

/-- Settles O27: sub-key 6 decodes to SHR Vx; x is not VF, so the shift reads Vx as it was, and
Vx's write does not touch the bit in VF. -/
theorem shrHalvesAndKeepsTheBit : Obligations.ShrHalvesAndKeepsTheBit := by
  refine ⟨decodesAs_of_nField rfl fun _ => decodeFamily8_of_nField_6, fun x s hx =>
    ⟨_, exec_shr_of_ne_vf s hx, ?half, ?bit, rfl, frame_advance_setV_setVf s x _ _⟩⟩
  case half => rw [getV_advance_setV_same, BitVec.toNat_ushiftRight, Nat.shiftRight_one]
  case bit => rw [getV_vf_advance_setV_setVf s _ _ hx, toNat_shiftedOut]

/-- Settles O23: sub-key 0 decodes to LD Vx, Vy, which is one register write and the advance. -/
theorem ldRegCopiesVy : Obligations.LdRegCopiesVy :=
  ⟨decodesAs_of_nField rfl fun _ => decodeFamily8_of_nField_0, fun x y s =>
    ⟨_, exec_ldReg x y s, getV_advance_setV_same s x _, advance_setV_pc s x _,
      frame_advance_setV s x _⟩⟩

end Sys2Proof.Machine
end

section
/-! The statement about the index load (44 R110): the leading nibble A, and a meaning that writes I and advances. -/

namespace Sys2Proof.Machine

/-- The dispatch on leading nibble A (30 R55). -/
theorem decodeWord_of_opField_A {w : Word} (h : opField w = 0xA) :
    decodeWord w = some (.ldI (nnnField w)) := by
  rw [decodeWord, h]
  rfl

/-- LD I, NNN writes its zero-extended operand to I and advances (44 R110). -/
theorem exec_ldI (nnn : Addr12) (s : State) :
    exec (.ldI nnn) s = .next (advance (setI s (target nnn))) := rfl

/-- I just written, read behind the advance (10 R17). -/
theorem advance_setI_i (s : State) (w : Word) : (advance (setI s w)).i = w := by
  rw [advance_eq, setPc_i, setI_i]

/-- The advance of an instruction that wrote I counts from its own address (40 R75). -/
theorem advance_setI_pc (s : State) (w : Word) : (advance (setI s w)).pc = s.pc + 2 := by
  rw [advance_eq, setPc_pc, setI_pc]

/-- A write of I and an advance touch nothing but I and PC (44 R110). -/
theorem frame_advance_setI (s : State) (w : Word) :
    Frame { index := true } s (advance (setI s w)) where
  __ := frame_setPc (setI s w) ((setI s w).pc + 2)
  index h := Bool.noConfusion h

/-- Settles O29: leading nibble A decodes to LD I, NNN, which is one write of I, of the
zero-extended and unchecked address, and the advance. -/
theorem ldISetsIndex : Obligations.LdISetsIndex := by
  refine ⟨decodesAs_of_opField fun _ => decodeWord_of_opField_A, fun nnn s =>
    ⟨_, exec_ldI nnn s, ?index, advance_setI_pc s _, frame_advance_setI s _⟩⟩
  case index => rw [advance_setI_i, target_toNat]

end Sys2Proof.Machine
end

section
/-! The statements about the timer moves and the glyph address (46 R126 to R129): the sub-key kk of family 0xF, one write and the advance, and the step around it, whose tick comes first. -/

namespace Sys2Proof.Machine

/-- A row of family 0xF is decoded by the sub-key of its match alone (30 R55, R56). -/
theorem decodesAs_of_kkField_F {bits : Word} {f : Word → Instr} (hop : opField bits = 0xF)
    (h : ∀ w, kkField w = kkField bits → decodeFamilyF w = some (f w)) :
    DecodesAs 0xF0FF bits f := by
  intro w hw
  obtain ⟨hopw, hkk⟩ := fields_of_and_F0FF hw
  rw [decodeWord, hopw, hop]
  exact h w hkk

/-- Sub-key 07 of family 0xF (30 R55). -/
theorem decodeFamilyF_of_kkField_07 {w : Word} (h : kkField w = 0x07) :
    decodeFamilyF w = some (.ldVxDt (xField w)) := by
  rw [decodeFamilyF, h]
  rfl

/-- Sub-key 15 of family 0xF (30 R55). -/
theorem decodeFamilyF_of_kkField_15 {w : Word} (h : kkField w = 0x15) :
    decodeFamilyF w = some (.ldDtVx (xField w)) := by
  rw [decodeFamilyF, h]
  rfl

/-- Sub-key 18 of family 0xF (30 R55). -/
theorem decodeFamilyF_of_kkField_18 {w : Word} (h : kkField w = 0x18) :
    decodeFamilyF w = some (.ldStVx (xField w)) := by
  rw [decodeFamilyF, h]
  rfl

/-- Sub-key 29 of family 0xF (30 R55). -/
theorem decodeFamilyF_of_kkField_29 {w : Word} (h : kkField w = 0x29) :
    decodeFamilyF w = some (.ldF (xField w)) := by
  rw [decodeFamilyF, h]
  rfl

/-- LD Vx, DT writes DT to Vx and advances (46 R126). -/
theorem exec_ldVxDt (x : Reg) (s : State) :
    exec (.ldVxDt x) s = .next (advance (setV s x s.dt)) := rfl

/-- LD DT, Vx writes Vx to DT and advances (46 R127). -/
theorem exec_ldDtVx (x : Reg) (s : State) :
    exec (.ldDtVx x) s = .next (advance (setDt s (getV s x))) := rfl

/-- LD ST, Vx writes Vx to ST and advances (46 R128). -/
theorem exec_ldStVx (x : Reg) (s : State) :
    exec (.ldStVx x) s = .next (advance (setSt s (getV s x))) := rfl

/-- LD F, Vx writes the address of glyph Vx to I and advances (46 R129). -/
theorem exec_ldF (x : Reg) (s : State) :
    exec (.ldF x) s = .next (advance (setI s (glyphAddress (getV s x)))) := rfl

/-- DT just written, read behind the advance (10 R19). -/
theorem advance_setDt_dt (s : State) (b : Byte) : (advance (setDt s b)).dt = b := by
  rw [advance_eq, setPc_dt, setDt_dt]

/-- ST just written, read behind the advance (10 R20). -/
theorem advance_setSt_st (s : State) (b : Byte) : (advance (setSt s b)).st = b := by
  rw [advance_eq, setPc_st, setSt_st]

/-- The advance of an instruction that wrote DT counts from its own address (40 R75). -/
theorem advance_setDt_pc (s : State) (b : Byte) : (advance (setDt s b)).pc = s.pc + 2 := by
  rw [advance_eq, setPc_pc, setDt_pc]

/-- The advance of an instruction that wrote ST counts from its own address (40 R75). -/
theorem advance_setSt_pc (s : State) (b : Byte) : (advance (setSt s b)).pc = s.pc + 2 := by
  rw [advance_eq, setPc_pc, setSt_pc]

/-- A write of DT and an advance touch nothing but DT and PC (46 R127). -/
theorem frame_advance_setDt (s : State) (b : Byte) :
    Frame { dt := true } s (advance (setDt s b)) where
  __ := frame_setPc (setDt s b) ((setDt s b).pc + 2)
  dt h := Bool.noConfusion h

/-- A write of ST and an advance touch nothing but ST and PC (46 R128). -/
theorem frame_advance_setSt (s : State) (b : Byte) :
    Frame { st := true } s (advance (setSt s b)) where
  __ := frame_setPc (setSt s b) ((setSt s b).pc + 2)
  st h := Bool.noConfusion h

/-- A ready machine's step: where the instruction leads from the ticked state, and then the step's
end (40 R70, R74). -/
theorem step_of_exec_tick {s t : State} {i : Instr} (hready : Ready s)
    (hdecode : decodeWord (wordAtPc s) = some i) (hexec : exec i (tick s) = .next t) :
    step s = .next (endStep t) := by
  rw [step_of_ready hready hdecode, hexec, onNext_next]

/-- Settles O35: sub-key 07 decodes to LD Vx, DT, which is one register write and the advance; in
the step the DT it reads, and leaves, is the one the tick counted down. -/
theorem ldVxDtReadsTheTickedTimer : Obligations.LdVxDtReadsTheTickedTimer := by
  refine ⟨decodesAs_of_kkField_F rfl fun _ => decodeFamilyF_of_kkField_07,
    fun x s => ⟨_, exec_ldVxDt x s, getV_advance_setV_same s x _, advance_setV_pc s x _,
      frame_advance_setV s x _⟩,
    fun x s hready hdecode =>
      ⟨_, step_of_exec_tick hready hdecode (exec_ldVxDt x (tick s)), ?register, ?timer⟩⟩
  case register => rw [endStep_getV, getV_advance_setV_same, tick_dt, countDown_toNat]
  case timer => rw [endStep_dt, advance_eq, setPc_dt, setV_dt, tick_dt, countDown_toNat]

/-- Settles O36: sub-keys 15 and 18 decode to LD DT, Vx and LD ST, Vx, each one write of a timer
and the advance; in the step the tick comes before that write and leaves Vx alone. -/
theorem timerLoadsWriteVx : Obligations.TimerLoadsWriteVx := by
  refine ⟨decodesAs_of_kkField_F rfl fun _ => decodeFamilyF_of_kkField_15,
    decodesAs_of_kkField_F rfl fun _ => decodeFamilyF_of_kkField_18, fun x s =>
    ⟨⟨_, exec_ldDtVx x s, advance_setDt_dt s _, advance_setDt_pc s _, frame_advance_setDt s _⟩,
      ⟨_, exec_ldStVx x s, advance_setSt_st s _, advance_setSt_pc s _, frame_advance_setSt s _⟩,
      fun hready hdecode =>
        ⟨_, step_of_exec_tick hready hdecode (exec_ldDtVx x (tick s)), ?dt⟩,
      fun hready hdecode =>
        ⟨_, step_of_exec_tick hready hdecode (exec_ldStVx x (tick s)), ?st⟩⟩⟩
  case dt => rw [endStep_dt, advance_setDt_dt, tick_getV]
  case st => rw [endStep_st, advance_setSt_st, tick_getV]

/-- Settles O37: sub-key 29 decodes to LD F, Vx, which is one write of I and the advance; five
times an 8-bit value fits in 16 bits, so the product is exact. -/
theorem ldFMultipliesByFive : Obligations.LdFMultipliesByFive := by
  refine ⟨decodesAs_of_kkField_F rfl fun _ => decodeFamilyF_of_kkField_29, fun x s =>
    ⟨_, exec_ldF x s, ?product, advance_setI_pc s _, frame_advance_setI s _⟩⟩
  case product => rw [advance_setI_i, glyphAddress_toNat]

end Sys2Proof.Machine
end

section
/-! PROOFS. Reset: the registers and the stack at zero for every choice of parameters, and O52. -/

namespace Sys2Proof.Machine

/-- Reset clears every V register, whatever the parameters (10 R26, 70 R171). -/
@[simp] theorem resetWith_getV (p : Params) (r : Reg) : getV (State.resetWith p) r = 0x00 :=
  Vector.getElem_replicate r.isLt

/-- Reset clears every stack entry, the unused entry 0 too (10 R22, 70 R171). -/
@[simp] theorem resetWith_stack_getElem (p : Params) (k : Fin 16) :
    (State.resetWith p).stack[k] = 0x0000 :=
  Vector.getElem_replicate k.isLt

/-- Settles O52: V and STACK are cleared entry by entry; the other six elements of the state are
written out as constants in the definition of reset. -/
theorem resetSetsEveryRegister : Obligations.ResetSetsEveryRegister :=
  ⟨resetWith_getV defaultParams, rfl, resetWith_stack_getElem defaultParams,
    rfl, rfl, rfl, rfl, rfl⟩

end Sys2Proof.Machine
end

section
/-! The statements about the decoder (30 R55 to R58): a word is decoded exactly when it matches a row, and then to that row's instruction with its operands read from the word. -/

namespace Sys2Proof.Machine

/-! ## A word put together again from its fields -/

/-- A word is its op and its nnn (30 section 3). -/
@[simp] theorem formatNnn_fields (w : Word) : formatNnn (opField w) (nnnField w) = w :=
  (BitVec.extractLsb'_append_extractLsb'_eq_extractLsb' (by decide)).trans
    BitVec.extractLsb'_eq_self

/-- A word is its op, x and kk (30 section 3). -/
@[simp] theorem formatXkk_fields (w : Word) :
    formatXkk (opField w) (xField w) (kkField w) = w := by
  have hop : opField w ++ xField w = w.extractLsb' 8 8 :=
    BitVec.extractLsb'_append_extractLsb'_eq_extractLsb' (by decide)
  rw [formatXkk, hop]
  exact wordOf_hiByte_loByte w

/-- A word is its op, x, y and n (30 section 3). -/
@[simp] theorem formatXyn_fields (w : Word) :
    formatXyn (opField w) (xField w) (yField w) (nField w) = w := by
  have hop : opField w ++ xField w = w.extractLsb' 8 8 :=
    BitVec.extractLsb'_append_extractLsb'_eq_extractLsb' (by decide)
  have hyn : yField w ++ nField w = kkField w :=
    BitVec.extractLsb'_append_extractLsb'_eq_extractLsb' (by decide)
  have hassoc : formatXyn (opField w) (xField w) (yField w) (nField w)
      = (opField w ++ xField w) ++ (yField w ++ nField w) := BitVec.append_assoc
  rw [hassoc, hop, hyn]
  exact wordOf_hiByte_loByte w

/-- Format NNN of a word whose op is known. -/
theorem formatNnn_of_opField {w : Word} {op : BitVec 4} (hop : opField w = op) :
    formatNnn op (nnnField w) = w := hop ▸ formatNnn_fields w

/-- Format XKK of a word whose op, and perhaps kk, is known. -/
theorem formatXkk_of_fields {w : Word} {op : BitVec 4} {kk : Byte} (hop : opField w = op)
    (hkk : kkField w = kk) : formatXkk op (xField w) kk = w := hop ▸ hkk ▸ formatXkk_fields w

/-- Format XYN of a word whose op, and perhaps n, is known. -/
theorem formatXyn_of_fields {w : Word} {op n : BitVec 4} (hop : opField w = op)
    (hn : nField w = n) : formatXyn op (xField w) (yField w) n = w :=
  hop ▸ hn ▸ formatXyn_fields w

/-- SHR's y is the one field its mask drops (30 R58). -/
theorem and_FF0F (w : Word) :
    w &&& 0xFF0F#16 = formatXyn (opField w) (xField w) 0x0 (nField w) := by
  apply BitVec.eq_of_getLsbD_eq
  intro k hk
  simp only [formatXyn, opField, xField, nField, BitVec.getLsbD_and, BitVec.getLsbD_append,
    BitVec.getLsbD_extractLsb']
  interval_cases k <;> simp

/-! ## The dispatch, in both directions -/

/-- The dispatch on leading nibble 0 (30 R55). -/
theorem decodeWord_of_opField_0 {w : Word} (h : opField w = 0x0) :
    decodeWord w = some .ret := by
  rw [decodeWord, h]
  rfl

/-- The dispatch on leading nibble 2 (30 R55). -/
theorem decodeWord_of_opField_2 {w : Word} (h : opField w = 0x2) :
    decodeWord w = some (.call (nnnField w)) := by
  rw [decodeWord, h]
  rfl

/-- The dispatch on leading nibble C (30 R55). -/
theorem decodeWord_of_opField_C {w : Word} (h : opField w = 0xC) :
    decodeWord w = some (.rnd (xField w) (kkField w)) := by
  rw [decodeWord, h]
  rfl

/-- The dispatch on leading nibble D (30 R55). -/
theorem decodeWord_of_opField_D {w : Word} (h : opField w = 0xD) :
    decodeWord w = some (.drw (xField w) (yField w) (nField w)) := by
  rw [decodeWord, h]
  rfl

/-- Sub-key 1 of family 0x8 (30 R55). -/
theorem decodeFamily8_of_nField_1 {w : Word} (h : nField w = 0x1) :
    decodeFamily8 w = some (.or (xField w) (yField w)) := by
  rw [decodeFamily8, h]
  rfl

/-- Sub-key 2 of family 0x8 (30 R55). -/
theorem decodeFamily8_of_nField_2 {w : Word} (h : nField w = 0x2) :
    decodeFamily8 w = some (.and (xField w) (yField w)) := by
  rw [decodeFamily8, h]
  rfl

/-- Sub-key 3 of family 0x8 (30 R55). -/
theorem decodeFamily8_of_nField_3 {w : Word} (h : nField w = 0x3) :
    decodeFamily8 w = some (.xor (xField w) (yField w)) := by
  rw [decodeFamily8, h]
  rfl

/-- A row of family 0xE is decoded by the sub-key of its match alone (30 R55, R56). -/
theorem decodesAs_of_kkField_E {bits : Word} {f : Word → Instr} (hop : opField bits = 0xE)
    (h : ∀ w, kkField w = kkField bits → decodeFamilyE w = some (f w)) :
    DecodesAs 0xF0FF bits f := by
  intro w hw
  obtain ⟨hopw, hkk⟩ := fields_of_and_F0FF hw
  rw [decodeWord, hopw, hop]
  exact h w hkk

/-- Sub-key 9E of family 0xE (30 R55). -/
theorem decodeFamilyE_of_kkField_9E {w : Word} (h : kkField w = 0x9E) :
    decodeFamilyE w = some (.skp (xField w)) := by
  rw [decodeFamilyE, h]
  rfl

/-- Sub-key A1 of family 0xE (30 R55). -/
theorem decodeFamilyE_of_kkField_A1 {w : Word} (h : kkField w = 0xA1) :
    decodeFamilyE w = some (.sknp (xField w)) := by
  rw [decodeFamilyE, h]
  rfl

/-- Sub-key 33 of family 0xF (30 R55). -/
theorem decodeFamilyF_of_kkField_33 {w : Word} (h : kkField w = 0x33) :
    decodeFamilyF w = some (.ldB (xField w)) := by
  rw [decodeFamilyF, h]
  rfl

/-- Sub-key 65 of family 0xF (30 R55). -/
theorem decodeFamilyF_of_kkField_65 {w : Word} (h : kkField w = 0x65) :
    decodeFamilyF w = some (.ldRegs (xField w)) := by
  rw [decodeFamilyF, h]
  rfl

/-- The instruction of i's row whose operands are the fields of w (30 R52, R54). -/
def rereadFrom (w : Word) : Instr → Instr
  | .ret => .ret
  | .jp _ => .jp (nnnField w)
  | .call _ => .call (nnnField w)
  | .se _ _ => .se (xField w) (kkField w)
  | .sne _ _ => .sne (xField w) (kkField w)
  | .ldImm _ _ => .ldImm (xField w) (kkField w)
  | .addImm _ _ => .addImm (xField w) (kkField w)
  | .ldReg _ _ => .ldReg (xField w) (yField w)
  | .or _ _ => .or (xField w) (yField w)
  | .and _ _ => .and (xField w) (yField w)
  | .xor _ _ => .xor (xField w) (yField w)
  | .add _ _ => .add (xField w) (yField w)
  | .sub _ _ => .sub (xField w) (yField w)
  | .shr _ => .shr (xField w)
  | .ldI _ => .ldI (nnnField w)
  | .rnd _ _ => .rnd (xField w) (kkField w)
  | .drw _ _ _ => .drw (xField w) (yField w) (nField w)
  | .skp _ => .skp (xField w)
  | .sknp _ => .sknp (xField w)
  | .ldVxDt _ => .ldVxDt (xField w)
  | .ldDtVx _ => .ldDtVx (xField w)
  | .ldStVx _ => .ldStVx (xField w)
  | .ldF _ => .ldF (xField w)
  | .ldB _ => .ldB (xField w)
  | .ldRegs _ => .ldRegs (xField w)

/-- Reading the operands again does not change the row. -/
@[simp] theorem row_rereadFrom (w : Word) (i : Instr) : (rereadFrom w i).row = i.row := by
  cases i <;> rfl

/-- A word that matches an instruction's row decodes to that row's instruction with the word's own
operands: the leading nibble selects the family, the sub-key the row in it (30 R55, R56). -/
theorem decodeWord_of_row {w : Word} {i : Instr} (h : w &&& i.row.mask = i.row.bits) :
    decodeWord w = some (rereadFrom w i) := by
  cases i with simp only [Instr.row] at h
  | ret => exact decodeWord_of_opField_0 (opField_of_and_F000 h)
  | jp _ => exact decodeWord_of_opField_1 (opField_of_and_F000 h)
  | call _ => exact decodeWord_of_opField_2 (opField_of_and_F000 h)
  | se _ _ => exact decodeWord_of_opField_3 (opField_of_and_F000 h)
  | sne _ _ => exact decodeWord_of_opField_4 (opField_of_and_F000 h)
  | ldImm _ _ => exact decodeWord_of_opField_6 (opField_of_and_F000 h)
  | addImm _ _ => exact decodeWord_of_opField_7 (opField_of_and_F000 h)
  | ldReg _ _ => exact decodesAs_of_nField rfl (fun _ => decodeFamily8_of_nField_0) w h
  | or _ _ => exact decodesAs_of_nField rfl (fun _ => decodeFamily8_of_nField_1) w h
  | and _ _ => exact decodesAs_of_nField rfl (fun _ => decodeFamily8_of_nField_2) w h
  | xor _ _ => exact decodesAs_of_nField rfl (fun _ => decodeFamily8_of_nField_3) w h
  | add _ _ => exact decodesAs_of_nField rfl (fun _ => decodeFamily8_of_nField_4) w h
  | sub _ _ => exact decodesAs_of_nField rfl (fun _ => decodeFamily8_of_nField_5) w h
  | shr _ => exact decodesAs_of_nField rfl (fun _ => decodeFamily8_of_nField_6) w h
  | ldI _ => exact decodeWord_of_opField_A (opField_of_and_F000 h)
  | rnd _ _ => exact decodeWord_of_opField_C (opField_of_and_F000 h)
  | drw _ _ _ => exact decodeWord_of_opField_D (opField_of_and_F000 h)
  | skp _ => exact decodesAs_of_kkField_E rfl (fun _ => decodeFamilyE_of_kkField_9E) w h
  | sknp _ => exact decodesAs_of_kkField_E rfl (fun _ => decodeFamilyE_of_kkField_A1) w h
  | ldVxDt _ => exact decodesAs_of_kkField_F rfl (fun _ => decodeFamilyF_of_kkField_07) w h
  | ldDtVx _ => exact decodesAs_of_kkField_F rfl (fun _ => decodeFamilyF_of_kkField_15) w h
  | ldStVx _ => exact decodesAs_of_kkField_F rfl (fun _ => decodeFamilyF_of_kkField_18) w h
  | ldF _ => exact decodesAs_of_kkField_F rfl (fun _ => decodeFamilyF_of_kkField_29) w h
  | ldB _ => exact decodesAs_of_kkField_F rfl (fun _ => decodeFamilyF_of_kkField_33) w h
  | ldRegs _ => exact decodesAs_of_kkField_F rfl (fun _ => decodeFamilyF_of_kkField_65) w h

/-- What family 0x8 decodes matches its row: op is 8 and n the row's sub-key (30 R56). -/
theorem row_of_decodeFamily8 {w : Word} {i : Instr} (hop : opField w = 0x8)
    (h : decodeFamily8 w = some i) : w &&& i.row.mask = i.row.bits := by
  rw [decodeFamily8] at h
  split at h <;> cases h <;> exact (and_F00F w).trans (by simp only [*]; rfl)

/-- What family 0xE decodes matches its row: op is E and kk the row's sub-key (30 R56). -/
theorem row_of_decodeFamilyE {w : Word} {i : Instr} (hop : opField w = 0xE)
    (h : decodeFamilyE w = some i) : w &&& i.row.mask = i.row.bits := by
  rw [decodeFamilyE] at h
  split at h <;> cases h <;> exact (and_F0FF w).trans (by simp only [*]; rfl)

/-- What family 0xF decodes matches its row: op is F and kk the row's sub-key (30 R56). -/
theorem row_of_decodeFamilyF {w : Word} {i : Instr} (hop : opField w = 0xF)
    (h : decodeFamilyF w = some i) : w &&& i.row.mask = i.row.bits := by
  rw [decodeFamilyF] at h
  split at h <;> cases h <;> exact (and_F0FF w).trans (by simp only [*]; rfl)

/-- A decoded word matches the row of its instruction (30 R56). -/
theorem row_of_decodeWord {w : Word} {i : Instr} (h : decodeWord w = some i) :
    w &&& i.row.mask = i.row.bits := by
  rw [decodeWord] at h
  split at h
  case h_8 hop => exact row_of_decodeFamily8 hop h
  case h_12 hop => exact row_of_decodeFamilyE hop h
  case h_13 hop => exact row_of_decodeFamilyF hop h
  all_goals cases h <;> exact (and_F000 w).trans (by simp only [*]; rfl)

/-- A decoded word's instruction has the word's own fields as operands (30 R54). -/
theorem eq_rereadFrom_of_decodeWord {w : Word} {i : Instr} (h : decodeWord w = some i) :
    i = rereadFrom w i :=
  Option.some.inj (h.symm.trans (decodeWord_of_row (row_of_decodeWord h)))

/-! ## The encoder -/

/-- Every instruction's word matches its own row of the table (30 R56). -/
theorem encodesInTable (i : Instr) : Laws.EncodesInTable.Statement i := by
  cases i with
  | ret => exact Laws.EncodesInTable.ret
  | jp nnn => exact Laws.EncodesInTable.jp nnn
  | call nnn => exact Laws.EncodesInTable.call nnn
  | se x kk => exact Laws.EncodesInTable.se x kk
  | sne x kk => exact Laws.EncodesInTable.sne x kk
  | ldImm x kk => exact Laws.EncodesInTable.ldImm x kk
  | addImm x kk => exact Laws.EncodesInTable.addImm x kk
  | ldReg x y => exact Laws.EncodesInTable.ldReg x y
  | or x y => exact Laws.EncodesInTable.or x y
  | and x y => exact Laws.EncodesInTable.and x y
  | xor x y => exact Laws.EncodesInTable.xor x y
  | add x y => exact Laws.EncodesInTable.add x y
  | sub x y => exact Laws.EncodesInTable.sub x y
  | shr x => exact Laws.EncodesInTable.shr x
  | ldI nnn => exact Laws.EncodesInTable.ldI nnn
  | rnd x kk => exact Laws.EncodesInTable.rnd x kk
  | drw x y n => exact Laws.EncodesInTable.drw x y n
  | skp x => exact Laws.EncodesInTable.skp x
  | sknp x => exact Laws.EncodesInTable.sknp x
  | ldVxDt x => exact Laws.EncodesInTable.ldVxDt x
  | ldDtVx x => exact Laws.EncodesInTable.ldDtVx x
  | ldStVx x => exact Laws.EncodesInTable.ldStVx x
  | ldF x => exact Laws.EncodesInTable.ldF x
  | ldB x => exact Laws.EncodesInTable.ldB x
  | ldRegs x => exact Laws.EncodesInTable.ldRegs x

/-- The operands read back from an instruction's word are its own (30 section 3). -/
theorem rereadFrom_encode (i : Instr) : rereadFrom (encode i) i = i := by
  cases i <;> simp [rereadFrom, encode]

/-- Settles O1: the word matches its instruction's row, so it decodes to that row with the operands
the word holds, which are the ones encoded. -/
theorem decodeEncodeRoundTrip : Obligations.DecodeEncodeRoundTrip := fun i => by
  rw [decodeWord_of_row (encodesInTable i).2, rereadFrom_encode]

/-- The word assembled from w's fields for the row of i, against w on the bits i uses (30 R58). -/
theorem encode_rereadFrom {w : Word} {i : Instr} (h : w &&& i.row.mask = i.row.bits) :
    encode (rereadFrom w i) &&& i.usedBits = w &&& i.usedBits := by
  cases i with simp only [Instr.row] at h
  | ret => exact (show encode .ret &&& 0xF000#16 = 0x0000#16 by decide).trans h.symm
  | shr x =>
    obtain ⟨hop, hn⟩ := fields_of_and_F00F h
    change formatXyn 0x8 (xField w) 0x0 0x6 &&& 0xFF0F#16 = w &&& 0xFF0F#16
    rw [and_FF0F w, hop, hn, and_FF0F]
    simp
    rfl
  | jp | call | ldI =>
    exact congrArg (· &&& 0xFFFF#16) (formatNnn_of_opField (opField_of_and_F000 h))
  | se | sne | ldImm | addImm | rnd =>
    exact congrArg (· &&& 0xFFFF#16) (formatXkk_of_fields (opField_of_and_F000 h) rfl)
  | drw => exact congrArg (· &&& 0xFFFF#16) (formatXyn_of_fields (opField_of_and_F000 h) rfl)
  | ldReg | or | and | xor | add | sub =>
    obtain ⟨hop, hn⟩ := fields_of_and_F00F h
    exact congrArg (· &&& 0xFFFF#16) (formatXyn_of_fields hop hn)
  | skp | sknp | ldVxDt | ldDtVx | ldStVx | ldF | ldB | ldRegs =>
    obtain ⟨hop, hkk⟩ := fields_of_and_F0FF h
    exact congrArg (· &&& 0xFFFF#16) (formatXkk_of_fields hop hkk)

/-- Settles O2: the word matches its instruction's row and gave it its operands. -/
theorem decodedWordReencodes : Obligations.DecodedWordReencodes := by
  intro w i h
  have hword := encode_rereadFrom (row_of_decodeWord h)
  rwa [← eq_rereadFrom_of_decodeWord h] at hword

/-! ## The rows and the unsupported words -/

/-- One instruction of each constructor, in the order of the table. -/
def oneOfEachRow : List Instr :=
  [.ret, .jp 0, .call 0, .se 0 0, .sne 0 0, .ldImm 0 0, .addImm 0 0, .ldReg 0 0, .or 0 0, .and 0 0,
    .xor 0 0, .add 0 0, .sub 0 0, .shr 0, .ldI 0, .rnd 0 0, .drw 0 0 0, .skp 0, .sknp 0, .ldVxDt 0,
    .ldDtVx 0, .ldStVx 0, .ldF 0, .ldB 0, .ldRegs 0]

/-- The table lists the rows of the constructors and nothing else (30 R56). -/
theorem opcodeTable_eq_map_row : opcodeTable = oneOfEachRow.map Instr.row := rfl

/-- A row of the table is the row of some instruction (30 R56). -/
theorem exists_row_of_mem {r : OpcodeRow} (h : r ∈ opcodeTable) : ∃ i : Instr, i.row = r := by
  rw [opcodeTable_eq_map_row] at h
  obtain ⟨i, -, hi⟩ := List.mem_map.1 h
  exact ⟨i, hi⟩

/-- A row of the table decodes exactly the words that match it (30 R56). -/
theorem decodes_to_row_iff (w : Word) (r : OpcodeRow) :
    (∃ i, decodeWord w = some i ∧ i.row = r) ↔ r ∈ opcodeTable ∧ w &&& r.mask = r.bits := by
  constructor
  · rintro ⟨i, hi, rfl⟩
    exact ⟨(encodesInTable i).1, row_of_decodeWord hi⟩
  · rintro ⟨hr, hw⟩
    obtain ⟨i, rfl⟩ := exists_row_of_mem hr
    exact ⟨_, decodeWord_of_row hw, row_rereadFrom w i⟩

/-- Settles O3: both directions of the decoder; two rows that match one word are both the row of the
one instruction it decodes to. -/
theorem rowsAreMaskAndMatch : Obligations.RowsAreMaskAndMatch := by
  refine ⟨decodes_to_row_iff, fun r hr q hq w hwr hwq => ?_⟩
  obtain ⟨i, hi, rfl⟩ := (decodes_to_row_iff w r).2 ⟨hr, hwr⟩
  obtain ⟨j, hj, rfl⟩ := (decodes_to_row_iff w q).2 ⟨hq, hwq⟩
  rw [Option.some.inj (hi.symm.trans hj)]

/-- Family 0x8 has the sub-keys 0 to 6 (30 R57, decision D3). -/
theorem decodeFamily8_eq_none_iff (w : Word) : decodeFamily8 w = none ↔ 0x7 ≤ (nField w).toNat := by
  rw [decodeFamily8]
  split
  case h_8 =>
    simp_all only [imp_false, true_iff]
    bv_omega
  all_goals simp [*]

/-- Family 0xE has the sub-keys 9E and A1 (30 R57). -/
theorem decodeFamilyE_eq_none_iff (w : Word) :
    decodeFamilyE w = none ↔ kkField w ≠ 0x9E ∧ kkField w ≠ 0xA1 := by
  rw [decodeFamilyE]
  split <;> simp_all

/-- Family 0xF has six sub-keys (30 R57). -/
theorem decodeFamilyF_eq_none_iff (w : Word) :
    decodeFamilyF w = none ↔ kkField w ≠ 0x07 ∧ kkField w ≠ 0x15 ∧ kkField w ≠ 0x18 ∧
      kkField w ≠ 0x29 ∧ kkField w ≠ 0x33 ∧ kkField w ≠ 0x65 := by
  rw [decodeFamilyF]
  split <;> simp_all

/-- Settles O4: three leading nibbles have no row, and three families refuse by their sub-key. -/
theorem unsupportedWordsAreListed : Obligations.UnsupportedWordsAreListed := by
  intro w
  rw [← decodeFamily8_eq_none_iff, ← decodeFamilyE_eq_none_iff, ← decodeFamilyF_eq_none_iff,
    decodeWord]
  split
  case h_14 =>
    simp_all only [imp_false, true_iff]
    bv_omega
  all_goals simp [*]

/-- Settles O6, the seventeen vectors, each by running the decoder. -/
theorem decoderVectors : Obligations.DecoderVectors := by
  unfold Obligations.DecoderVectors
  decide

end Sys2Proof.Machine
end

section
/-! What an instruction may write and which fault it may raise: for every instruction one of the two, from which the statements about faults and writers follow (60 R142, R150; 10 R12, R17, R18, R22; 40 R79). -/

namespace Sys2Proof.Machine

/-! ## Frames of the remaining state operations -/

/-- A frame whose memory is the same data, not only read the same, where no byte is written. -/
structure ExactFrame (w : Writes) (s t : State) : Prop extends Frame w s t where
  memEq : w.bytes.2 = 0 → t.mem = s.mem

/-- What changes nothing is within every frame. -/
theorem exactFrame_refl (w : Writes) (s : State) : ExactFrame w s s where
  regs _ _ := rfl
  index _ := rfl
  stack _ := ⟨rfl, rfl⟩
  dt _ := rfl
  st _ := rfl
  mem _ _ := rfl
  display _ := rfl
  status := rfl
  params := rfl
  env := rfl
  draws := rfl
  memEq _ := rfl

/-- RET's pop and its write of PC touch nothing but SP and PC (41 R80). -/
theorem frame_pop_setPc (s : State) (w : Word) : Frame { stack := true } s (pop (setPc s w)) where
  __ := frame_setPc s w
  stack h := Bool.noConfusion h

/-- CALL's push and its write of PC touch nothing but SP, STACK and PC (41 R82). -/
theorem frame_setPc_push (s : State) (a w : Word) :
    Frame { stack := true } s (setPc (push s a) w) where
  __ := frame_setPc (push s a) w
  stack h := Bool.noConfusion h

/-- The registers a draw writes: VF under DRAW_WRITES_VF, else none (44 R112). -/
def drawnRegs (s : State) : List Reg := if s.params.drawWritesVf then [Reg.vf] else []

/-- A draw and the advance touch nothing but the display record, PC and, under DRAW_WRITES_VF, VF
(44 R112). -/
theorem frame_advance_draw (s : State) (c : DrawCommand) :
    Frame { regs := drawnRegs s, display := true } s (advance (collisionToVf (sendDraw s c))) := by
  unfold drawnRegs collisionToVf
  rw [sendDraw_params]
  split
  · have hvf := frame_advance_setV (sendDraw s c) Reg.vf
      (flagByte (inputs (sendDraw s c)).collision)
    exact { hvf with display := Bool.noConfusion }
  · exact { frame_setPc (sendDraw s c) (s.pc + 2) with display := Bool.noConfusion }

/-- A store and the advance touch nothing but the bytes stored and PC (46 R130). -/
theorem frame_advance_store (s : State) (bs : List Byte) :
    Frame { bytes := (dataAddress s, bs.length) } s
      (advance { s with mem := writeBytes s.mem s.i.toNat bs }) where
  __ := frame_setPc s (s.pc + 2)
  mem a ha := by
    have hout : ¬ (s.i.toNat ≤ a ∧ a < s.i.toNat + bs.length) := by
      rintro ⟨hle, hlt⟩
      rcases ha with h | h
      · exact absurd h (Nat.not_lt.2 hle)
      · exact absurd hlt (Nat.not_lt.2 h)
    exact (readByte_writeBytes s.mem s.i.toNat a bs).trans (if_neg hout)

/-- The registers V0 to Vx (46 R131). -/
theorem mem_range_regs (x r : Reg) :
    r ∈ (List.range (x.toNat + 1)).map (BitVec.ofNat 4) ↔ r.toNat ≤ x.toNat := by
  have hx := x.isLt
  simp only [List.mem_map, List.mem_range]
  constructor
  · rintro ⟨k, hk, rfl⟩
    rw [BitVec.toNat_ofNat]
    omega
  · intro h
    exact ⟨r.toNat, by omega, by simp⟩

/-- A register load and the advance touch nothing but V0 to Vx and PC (46 R131). -/
theorem frame_advance_setVs (s : State) (x : Reg) (bs : List Byte) (hbs : bs.length = x.toNat + 1) :
    Frame { regs := (List.range (x.toNat + 1)).map (BitVec.ofNat 4) } s
      (advance (setVs s 0 bs)) := by
  have hv := setVs_frame s 0 bs
  have hregs : ∀ r, r ∉ (List.range (x.toNat + 1)).map (BitVec.ofNat 4) →
      getV (setVs s 0 bs) r = getV s r := by
    intro r hr
    rw [mem_range_regs] at hr
    rw [getV_setVs, if_neg (by omega)]
  rw [hv] at hregs ⊢
  exact { frame_setPc s (s.pc + 2) with regs := hregs }

/-! ## What each instruction writes, and what it may raise -/

/-- What an instruction that completes writes (10 R12, R17, R18, R22; 60 R159). -/
def writesOf (s : State) : Instr → Writes
  | .jp _ | .se _ _ | .sne _ _ | .skp _ | .sknp _ => {}
  | .ret | .call _ => { stack := true }
  | .ldImm x _ | .addImm x _ | .ldReg x _ | .or x _ | .and x _ | .xor x _ | .rnd x _ | .ldVxDt x =>
    { regs := [x] }
  | .add x _ | .sub x _ | .shr x => { regs := [x, Reg.vf] }
  | .ldI _ | .ldF _ => { index := true }
  | .drw _ _ _ => { regs := drawnRegs s, display := true }
  | .ldDtVx _ => { dt := true }
  | .ldStVx _ => { st := true }
  | .ldB _ => { bytes := (dataAddress s, 3) }
  | .ldRegs x => { regs := (List.range (x.toNat + 1)).map (BitVec.ofNat 4) }

/-- The faults an instruction may raise, with what they record (60 R142, R150). -/
def MayRaise (s : State) (c : Cause) : Instr → Prop
  | .ret => c = .stackUnderflow s.pc
  | .call _ => c = .stackOverflow s.pc
  | .drw _ _ _ | .ldRegs _ => ∃ a, c = .memoryOutOfRange .read a ∧ s.params.memSize ≤ a
  | .ldB _ => ∃ a, c = .memoryOutOfRange .write a ∧ s.params.memSize ≤ a
  | .skp x | .sknp x => c = .keyIndexOutOfRange (getV s x)
  | _ => False

/-- Every instruction completes within what it writes, or raises a fault of its own (40 R79,
60 R150). -/
theorem exec_completes_or_raises (i : Instr) (s : State) :
    (∃ t, exec i s = .next t ∧ ExactFrame (writesOf s i) s t) ∨
    ∃ c, exec i s = raise c s ∧ MayRaise s c i := by
  cases i with
  | ret =>
    rcases execRet_cases s with ⟨-, he⟩ | ⟨-, he⟩
    · exact .inl ⟨_, he, frame_pop_setPc s _, fun _ => rfl⟩
    · exact .inr ⟨_, he, rfl⟩
  | call a =>
    rcases execCall_cases a s with ⟨-, he⟩ | ⟨-, he⟩
    · exact .inl ⟨_, he, frame_setPc_push s _ _, fun _ => rfl⟩
    · exact .inr ⟨_, he, rfl⟩
  | jp | se | sne => exact .inl ⟨_, rfl, frame_setPc s _, fun _ => rfl⟩
  | ldImm | addImm | ldReg | or | and | xor | rnd | ldVxDt =>
    exact .inl ⟨_, rfl, frame_advance_setV s _ _, fun _ => rfl⟩
  | add | sub | shr => exact .inl ⟨_, rfl, frame_advance_setV_setVf s _ _ _, fun _ => rfl⟩
  | ldI | ldF => exact .inl ⟨_, rfl, frame_advance_setI s _, fun _ => rfl⟩
  | ldDtVx => exact .inl ⟨_, rfl, frame_advance_setDt s _, fun _ => rfl⟩
  | ldStVx => exact .inl ⟨_, rfl, frame_advance_setSt s _, fun _ => rfl⟩
  | drw x y n =>
    rcases execDrw_cases x y n s with ⟨-, he⟩ | ⟨-, he⟩
    · exact .inl ⟨_, he, frame_advance_draw s _, fun _ => by rw [collisionToVf_frame]; rfl⟩
    · exact .inr ⟨_, he, _, rfl, Nat.le_max_right ..⟩
  | skp x =>
    rcases execSkp_cases x s with ⟨b, -, he⟩ | ⟨-, -, he⟩
    · exact .inl ⟨_, he, frame_skipIf b s, fun _ => rfl⟩
    · exact .inr ⟨_, he, rfl⟩
  | sknp x =>
    rcases execSknp_cases x s with ⟨b, -, he⟩ | ⟨-, -, he⟩
    · exact .inl ⟨_, he, frame_skipIf (!b) s, fun _ => rfl⟩
    · exact .inr ⟨_, he, rfl⟩
  | ldB x =>
    rcases execLdB_cases x s with ⟨-, he⟩ | ⟨-, he⟩
    · exact .inl ⟨_, he, frame_advance_store s (bcdDigits _),
        fun h => absurd h (Nat.succ_ne_zero 2)⟩
    · exact .inr ⟨_, he, _, rfl, Nat.le_max_right ..⟩
  | ldRegs x =>
    rcases execLdRegs_cases x s with ⟨-, he⟩ | ⟨-, he⟩
    · exact .inl ⟨_, he, frame_advance_setVs s x _ (readBytes_length ..),
        fun _ => by rw [setVs_frame]; rfl⟩
    · exact .inr ⟨_, he, _, rfl, Nat.le_max_right ..⟩

/-- Where an instruction leads, but for STATUS, is within what it writes, whether it completes or
raises (60 R141). -/
theorem exec_frame {i : Instr} {s t : State} (h : exec i s = .next t) :
    ExactFrame (writesOf s i) s { t with status := s.status } := by
  rcases exec_completes_or_raises i s with ⟨u, he, hframe⟩ | ⟨c, he, -⟩
  · obtain rfl := Host.Outcome.next.inj (he.symm.trans h)
    rwa [← hframe.status]
  · obtain rfl := Host.Outcome.next.inj (he.symm.trans h)
    exact exactFrame_refl _ s

/-- A running machine left Faulted is the old state but for STATUS, and the fault is one the
instruction may raise (60 R141, R150). -/
theorem raised_of_faulted {i : Instr} {s t : State} {c : Cause} (hs : s.status = .running)
    (h : exec i s = .next t) (hc : t.status = .faulted c) :
    t = { s with status := .faulted c } ∧ MayRaise s c i := by
  rcases exec_completes_or_raises i s with ⟨u, he, hframe⟩ | ⟨d, he, hd⟩
  · obtain rfl := Host.Outcome.next.inj (he.symm.trans h)
    cases hc.symm.trans (hframe.status.trans hs)
  · obtain rfl := Host.Outcome.next.inj (he.symm.trans h)
    cases hc
    exact ⟨rfl, hd⟩

/-! ## Faults -/

/-- Settles O42: what ends Faulted has raised, and a raise writes STATUS alone. -/
theorem faultsHaveNoOtherEffect : Obligations.FaultsHaveNoOtherEffect :=
  fun _ _ _ _ hs h hc => (raised_of_faulted hs h hc).1

/-- Settles O43: what ends Faulted has raised one of its instruction's faults. -/
theorem faultsRaisedByEachInstruction : Obligations.FaultsRaisedByEachInstruction := by
  intro i s t c hs h hc
  have hraise := (raised_of_faulted hs h hc).2
  cases i <;> exact hraise

/-! ## Writers -/

section
variable {i : Instr} (s : State)

/-- I is written by LD I and LD F alone (10 R17). -/
theorem writesOf_index_eq_false (hldI : ∀ a, i ≠ .ldI a) (hldF : ∀ x, i ≠ .ldF x) :
    (writesOf s i).index = false := by
  cases i with
  | ldI a => exact absurd rfl (hldI a)
  | ldF x => exact absurd rfl (hldF x)
  | _ => rfl

/-- SP and STACK are written by CALL and RET alone (10 R18, R22). -/
theorem writesOf_stack_eq_false (hcall : ∀ a, i ≠ .call a) (hret : i ≠ .ret) :
    (writesOf s i).stack = false := by
  cases i with
  | call a => exact absurd rfl (hcall a)
  | ret => exact absurd rfl hret
  | _ => rfl

/-- A command is sent by DRW alone (60 R159). -/
theorem writesOf_display_eq_false (hdrw : ∀ x y n, i ≠ .drw x y n) :
    (writesOf s i).display = false := by
  cases i with
  | drw x y n => exact absurd rfl (hdrw x y n)
  | _ => rfl

/-- DT is written by LD DT, Vx alone (10 R19). -/
theorem writesOf_dt_eq_false (hldDt : ∀ x, i ≠ .ldDtVx x) : (writesOf s i).dt = false := by
  cases i with
  | ldDtVx x => exact absurd rfl (hldDt x)
  | _ => rfl

/-- ST is written by LD ST, Vx alone (10 R20). -/
theorem writesOf_st_eq_false (hldSt : ∀ x, i ≠ .ldStVx x) : (writesOf s i).st = false := by
  cases i with
  | ldStVx x => exact absurd rfl (hldSt x)
  | _ => rfl

/-- Memory is written by LD B alone (20 R32). -/
theorem writesOf_bytes_eq_zero (hldB : ∀ x, i ≠ .ldB x) : (writesOf s i).bytes.2 = 0 := by
  cases i with
  | ldB x => exact absurd rfl (hldB x)
  | _ => rfl

end

/-- RET keeps every entry of the stack, whether it pops or faults (41 R80). -/
theorem exec_ret_stack {s t : State} (h : exec .ret s = .next t) : t.stack = s.stack := by
  rcases execRet_cases s with ⟨-, he⟩ | ⟨-, he⟩ <;>
    obtain rfl := Host.Outcome.next.inj (he.symm.trans h) <;> rfl

/-- Settles O45: I, the stack and the display are outside what every other instruction writes; RET
writes SP but no entry. -/
theorem writersOfIndexStackAndDisplay : Obligations.WritersOfIndexStackAndDisplay := by
  intro i s t h
  have hframe := exec_frame h
  refine ⟨fun hldI hldF => hframe.index (writesOf_index_eq_false s hldI hldF), fun hcall => ?stack,
    fun hdrw => hframe.display (writesOf_display_eq_false s hdrw)⟩
  case stack =>
    by_cases hret : i = .ret
    · subst hret
      exact ⟨exec_ret_stack h, fun hne => absurd rfl hne⟩
    · obtain ⟨hsp, hstack⟩ := hframe.stack (writesOf_stack_eq_false s hcall hret)
      exact ⟨hstack, fun _ => hsp⟩

/-- A register load that reaches VF is LD VF, [I] (46 R131). -/
theorem eq_vf_of_vf_le {x : Reg} (h : Reg.vf.toNat ≤ x.toNat) : x = Reg.vf := by
  have hx := x.isLt
  exact BitVec.eq_of_toNat_eq (by change x.toNat = 15; change 15 ≤ x.toNat at h; omega)

/-- Settles O46: where VF differs it is among the registers the instruction writes. -/
theorem writersOfVf : Obligations.WritersOfVf := by
  intro i s t h hne
  have hmem : Reg.vf ∈ (writesOf s i).regs := by
    by_contra hout
    exact hne ((exec_frame h).regs Reg.vf hout)
  cases i with
  | ldRegs x =>
    obtain rfl := eq_vf_of_vf_le ((mem_range_regs x Reg.vf).1 hmem)
    simp
  | drw x y n =>
    have hparam : s.params.drawWritesVf = true := by
      by_contra hoff
      simp [writesOf, drawnRegs, hoff] at hmem
    simp [hparam]
  | ldImm x | addImm x | rnd x | ldReg x | or x | and x | xor x | ldVxDt x =>
    obtain rfl := List.mem_singleton.1 hmem
    simp
  | add | sub | shr => simp
  | _ => cases hmem

/-! ## The step -/

/-- Settles O12: each of the four ways a running machine's step can go has a next state, and none
of them touches the inputs or the parameters before the end of the step. -/
theorem runningMachineAlwaysSteps : Obligations.RunningMachineAlwaysSteps := by
  intro s hs
  rcases step_cases s hs with ⟨-, he⟩ | ⟨-, -, he⟩ | ⟨-, -, he⟩ | ⟨-, i, -, he⟩
  · exact ⟨_, he, rfl, rfl, rfl⟩
  · exact ⟨_, he, rfl, rfl, rfl⟩
  · exact ⟨_, he, rfl, rfl, rfl⟩
  · rcases exec_completes_or_raises i (tick s) with ⟨t, ht, hframe⟩ | ⟨c, ht, -⟩
    · rw [ht, onNext_next] at he
      exact ⟨_, he, congrArg List.tail hframe.env, congrArg (· + 1) hframe.draws, hframe.params⟩
    · rw [ht, raise_eq, onNext_next] at he
      exact ⟨_, he, rfl, rfl, rfl⟩

/-- What a ready machine's step is: the decoded instruction run in the ticked state, or, without
one, the fault from there (40 R74, 60 R143). -/
theorem step_ready_cases {s t : State} (hready : Ready s) (hstep : step s = .next t) :
    (decodeWord (wordAtPc s) = none ∧ t = endStep { tick s with
      status := .faulted (.unsupportedInstruction (wordAtPc s)) }) ∨
    ∃ i u, decodeWord (wordAtPc s) = some i ∧ exec i (tick s) = .next u ∧ t = endStep u := by
  obtain ⟨hs, hstop, hpc⟩ := hready
  rcases step_cases s hs with ⟨hstop', -⟩ | ⟨-, hpc', -⟩ | ⟨-, hw, he⟩ | ⟨-, i, hi, he⟩
  · cases hstop.symm.trans hstop'
  · omega
  · exact .inl ⟨hw, Host.Outcome.next.inj (hstep.symm.trans he)⟩
  · obtain ⟨u, hu, rfl⟩ := onNext_eq_next.1 (he.symm.trans hstep)
    exact .inr ⟨i, u, hi, hu, rfl⟩

/-- Settles O13: the tick comes before the instruction or the fault, and only the two timer loads
write a timer after it. -/
theorem timersTickInEveryStep : Obligations.TimersTickInEveryStep := by
  intro s t hready hstep
  rcases step_ready_cases hready hstep with ⟨-, rfl⟩ | ⟨i, u, hi, hexec, rfl⟩
  · exact ⟨fun _ => countDown_toNat s.dt, fun _ => countDown_toNat s.st⟩
  · have hframe := exec_frame hexec
    constructor
    · intro hne
      have hdt := hframe.dt (writesOf_dt_eq_false _ fun x hx => hne x (hx ▸ hi))
      exact (congrArg BitVec.toNat hdt).trans (countDown_toNat s.dt)
    · intro hne
      have hst := hframe.st (writesOf_st_eq_false _ fun x hx => hne x (hx ▸ hi))
      exact (congrArg BitVec.toNat hst).trans (countDown_toNat s.st)

/-- A step keeps memory, or runs LD B in the ticked state (20 R32). -/
theorem step_mem_cases {s t : State} (hstep : step s = .next t) :
    t.mem = s.mem ∨ ∃ x u, decodeWord (wordAtPc s) = some (.ldB x) ∧
      exec (.ldB x) (tick s) = .next u ∧ t.mem = u.mem := by
  rcases step_cases s (running_of_step hstep) with ⟨-, he⟩ | ⟨-, -, he⟩ | ⟨hready, -⟩ | ⟨hready, -⟩
  · obtain rfl := Host.Outcome.next.inj (he.symm.trans hstep)
    exact .inl rfl
  · obtain rfl := Host.Outcome.next.inj (he.symm.trans hstep)
    exact .inl rfl
  all_goals
    rcases step_ready_cases hready hstep with ⟨-, rfl⟩ | ⟨i, u, hi, hexec, rfl⟩
    · exact .inl rfl
    · by_cases hldB : ∃ x, i = .ldB x
      · obtain ⟨x, rfl⟩ := hldB
        exact .inr ⟨x, u, hi, hexec, rfl⟩
      · exact .inl ((exec_frame hexec).memEq
          (writesOf_bytes_eq_zero _ fun x hx => hldB ⟨x, hx⟩))

/-- Settles O44: memory is the same data where the instruction is not LD B. -/
theorem onlyLdBWritesMemory : Obligations.OnlyLdBWritesMemory := by
  intro s t hstep hne a
  rcases step_mem_cases hstep with hmem | ⟨x, -, hx, -⟩
  · rw [hmem]
  · exact absurd hx (hne x)

end Sys2Proof.Machine
end

section
/-! The statements about the canonical form of memory and the invariant of the reachable states (10 R27, 20 R30; log 6). -/

namespace Sys2Proof.Machine

/-! ## The canonical form is one per memory -/

/-- A cell is listed in a canonical memory exactly when its byte is what its address reads as
and not what an unlisted address would. -/
theorem mem_iff_readByte {m : Memory} (hm : m.wf) (a : Nat) (b : Byte) :
    (a, b) ∈ m ↔ readByte m a = b ∧ b ≠ unlistedByte a := by
  induction m with
  | nil =>
    refine iff_of_false List.not_mem_nil ?_
    rintro ⟨hread, hne⟩
    exact hne hread.symm
  | cons c m ih =>
    obtain ⟨k, v⟩ := c
    obtain ⟨hpair, hunlisted⟩ := hm
    obtain ⟨hlt, hpair⟩ := List.pairwise_cons.1 hpair
    by_cases hk : k = a
    · subst hk
      have hout : (k, b) ∉ m := fun h => Nat.lt_irrefl k (hlt _ h)
      have hv : v ≠ unlistedByte k := hunlisted _ List.mem_cons_self
      rw [readByte, if_pos rfl, List.mem_cons, or_iff_left hout, Prod.mk.injEq]
      constructor
      · rintro ⟨-, rfl⟩
        exact ⟨rfl, hv⟩
      · rintro ⟨rfl, -⟩
        exact ⟨rfl, rfl⟩
    · have hne : (a, b) ≠ (k, v) := fun h => hk (congrArg Prod.fst h).symm
      rw [readByte, if_neg hk, List.mem_cons, or_iff_right hne]
      exact ih ⟨hpair, fun c hc => hunlisted c (List.mem_cons_of_mem _ hc)⟩

/-- Settles O51: canonical memories that read the same list the same cells, and strictly rising
lists of the same cells are equal. -/
theorem canonicalMemoriesAreEqualData : Obligations.CanonicalMemoriesAreEqualData := by
  intro m n hm hn hread
  have : Std.Irrefl fun c d : Host.Cell => c.1 < d.1 := ⟨fun c => Nat.lt_irrefl c.1⟩
  have hmem : ∀ c, c ∈ m ↔ c ∈ n := by
    rintro ⟨a, b⟩
    rw [mem_iff_readByte hm, mem_iff_readByte hn, hread]
  exact hm.1.eq_of_mem_iff hn.1 hmem

/-! ## Memory under a step -/

/-- LD B leaves memory as it was, or stores three bytes that are all in range (46 R130). -/
theorem exec_ldB_mem {x : Reg} {s t : State} (h : exec (.ldB x) s = .next t) :
    t.mem = s.mem ∨ s.i.toNat + 3 ≤ s.params.memSize ∧
      t.mem = writeBytes s.mem s.i.toNat (bcdDigits (getV s x)) := by
  rcases execLdB_cases x s with ⟨hin, he⟩ | ⟨-, he⟩
  · obtain rfl := Host.Outcome.next.inj (he.symm.trans h)
    exact .inr ⟨hin.resolve_left (by decide), rfl⟩
  · obtain rfl := Host.Outcome.next.inj (he.symm.trans h)
    exact .inl rfl

/-- A step leaves memory as it was, or stores three bytes that are all in range (20 R32). -/
theorem step_mem {s t : State} (hstep : step s = .next t) :
    t.mem = s.mem ∨ s.i.toNat + 3 ≤ s.params.memSize ∧
      ∃ x, t.mem = writeBytes s.mem s.i.toNat (bcdDigits (getV s x)) := by
  rcases step_mem_cases hstep with hmem | ⟨x, u, -, hexec, htu⟩
  · exact .inl hmem
  · rcases exec_ldB_mem hexec with hu | ⟨hin, hu⟩
    · exact .inl (htu.trans hu)
    · exact .inr ⟨hin, x, htu.trans hu⟩

/-- Settles O50: the one write a step may make keeps the canonical form. -/
theorem stepKeepsMemoryCanonical : Obligations.StepKeepsMemoryCanonical := by
  intro s t hwf hstep
  rcases step_mem hstep with hmem | ⟨-, x, hmem⟩
  · rwa [hmem]
  · rw [hmem]
    exact wf_writeBytes hwf _ _

/-- A step lists no address that is out of memory (20 R31). -/
theorem step_memValid {s t : State} (hvalid : ∀ c ∈ s.mem, c.1 < s.params.memSize)
    (hstep : step s = .next t) : ∀ c ∈ t.mem, c.1 < s.params.memSize := by
  rcases step_mem hstep with hmem | ⟨hin, x, hmem⟩
  · rwa [hmem]
  · intro c hc
    rw [hmem] at hc
    rcases mem_writeBytes hc with ⟨-, hlt⟩ | hold
    · exact Nat.lt_of_lt_of_le hlt hin
    · exact hvalid c hold

/-! ## I and the stack under an instruction -/

/-- I is kept, or holds a 12-bit operand or the address of a glyph (44 R110, 46 R129). -/
theorem exec_index {i : Instr} {s t : State} (h : exec i s = .next t) :
    t.i = s.i ∨ t.i.toNat ≤ 0x0FFF := by
  cases i with
  | ldI nnn =>
    obtain rfl := Host.Outcome.next.inj ((exec_ldI nnn s).symm.trans h)
    have hlt := nnn.isLt
    rw [advance_setI_i, target_toNat]
    exact .inr (by omega)
  | ldF x =>
    obtain rfl := Host.Outcome.next.inj ((exec_ldF x s).symm.trans h)
    have hlt := (getV s x).isLt
    rw [advance_setI_i, glyphAddress_toNat]
    exact .inr (by omega)
  | _ => exact .inl ((exec_frame h).index rfl)

/-- The stack is kept, or has lost its last entry from SP, or has PC pushed on it (41 R80, R82). -/
theorem exec_stack {i : Instr} {s t : State} (h : exec i s = .next t) :
    (t.sp = s.sp ∧ t.stack = s.stack) ∨
    (s.sp ≠ 0 ∧ t.sp = s.sp - 1 ∧ t.stack = s.stack) ∨
    (s.sp.toNat < 15 ∧ t.sp = s.sp + 1 ∧
      t.stack = s.stack.setIfInBounds (s.sp + 1).toNat s.pc) := by
  cases i with
  | ret =>
    rcases execRet_cases s with ⟨hsp, he⟩ | ⟨-, he⟩
    · obtain rfl := Host.Outcome.next.inj (he.symm.trans h)
      exact .inr (.inl ⟨hsp, rfl, rfl⟩)
    · obtain rfl := Host.Outcome.next.inj (he.symm.trans h)
      exact .inl ⟨rfl, rfl⟩
  | call a =>
    rcases execCall_cases a s with ⟨hsp, he⟩ | ⟨-, he⟩
    · obtain rfl := Host.Outcome.next.inj (he.symm.trans h)
      exact .inr (.inr ⟨hsp, rfl, rfl⟩)
    · obtain rfl := Host.Outcome.next.inj (he.symm.trans h)
      exact .inl ⟨rfl, rfl⟩
  | _ => exact .inl ((exec_frame h).stack rfl)

/-! ## The invariant -/

/-- The part of the invariant that speaks of I, SP and STACK, for a memory of the given size. -/
structure RegistersOk (memSize : Nat) (s : State) : Prop where
  index : s.i.toNat ≤ 0x0FFF
  sp : s.sp.toNat ≤ 15
  entryZero : s.stack[0] = 0
  entries : ∀ k : Fin 16, s.stack[k] = 0 ∨ s.stack[k].toNat + 2 ≤ memSize

/-- The invariant of R27 is the one about memory and the one about I, SP and STACK. -/
theorem inv_iff (s : State) :
    Inv s ↔ s.params.Ok ∧ Memory.wf s.mem ∧ (∀ c ∈ s.mem, c.1 < s.params.memSize) ∧
      RegistersOk s.params.memSize s :=
  ⟨fun ⟨hp, hwf, hv, hi, hsp, h0, he⟩ => ⟨hp, hwf, hv, hi, hsp, h0, he⟩,
    fun ⟨hp, hwf, hv, hi, hsp, h0, he⟩ => ⟨hp, hwf, hv, hi, hsp, h0, he⟩⟩

/-- SP one up, below the limit of 15 (41 R82). -/
theorem toNat_sp_succ {b : Byte} (h : b.toNat < 15) : (b + 1).toNat = b.toNat + 1 := by
  bv_omega

/-- SP one down, above the empty stack (41 R80). -/
theorem toNat_sp_pred {b : Byte} (h : b ≠ 0) : (b - 1).toNat + 1 = b.toNat := by
  bv_omega

/-- The entries after PC was pushed above SP (41 R82). -/
theorem getElem_pushed (stack : Vector Word 16) {b : Byte} (h : b.toNat < 15) (w : Word)
    (k : Fin 16) : (stack.setIfInBounds (b + 1).toNat w)[k] =
      if k.val = b.toNat + 1 then w else stack[k] := by
  rw [Fin.getElem_fin, Vector.getElem_setIfInBounds, toNat_sp_succ h]
  simp only [eq_comm, Fin.getElem_fin]

/-- An instruction whose own word is in memory keeps the bounds on I, SP and STACK: what CALL pushes
is the address of that word (10 R27). -/
theorem exec_registersOk {i : Instr} {s t : State} {memSize : Nat} (hpc : s.pc.toNat + 2 ≤ memSize)
    (hok : RegistersOk memSize s) (h : exec i s = .next t) : RegistersOk memSize t := by
  obtain ⟨hi, hsp, h0, he⟩ := hok
  have hi' : t.i.toNat ≤ 0x0FFF := (exec_index h).elim (fun e => e ▸ hi) id
  rcases exec_stack h with ⟨hsp', hst⟩ | ⟨hne, hsp', hst⟩ | ⟨hlt, hsp', hst⟩
  · exact ⟨hi', hsp' ▸ hsp, hst ▸ h0, hst ▸ he⟩
  · have hpred := toNat_sp_pred hne
    exact ⟨hi', by rw [hsp']; omega, hst ▸ h0, hst ▸ he⟩
  · refine ⟨hi', by rw [hsp', toNat_sp_succ hlt]; omega, ?zero, fun k => ?entry⟩
    case zero =>
      rw [hst]
      exact (getElem_pushed s.stack hlt s.pc 0).trans ((if_neg (Nat.succ_ne_zero _).symm).trans h0)
    case entry =>
      rw [hst, getElem_pushed s.stack hlt]
      split
      · exact .inr hpc
      · exact he k

/-- Every step keeps the bounds on I, SP and STACK (10 R27). -/
theorem step_registersOk {s t : State} (hok : RegistersOk s.params.memSize s)
    (hstep : step s = .next t) : RegistersOk s.params.memSize t := by
  obtain ⟨hi, hsp, h0, he⟩ := hok
  rcases step_cases s (running_of_step hstep) with ⟨-, hs⟩ | ⟨-, -, hs⟩ | ⟨-, -, hs⟩ |
    ⟨hready, i, -, hs⟩
  · obtain rfl := Host.Outcome.next.inj (hs.symm.trans hstep)
    exact ⟨hi, hsp, h0, he⟩
  · obtain rfl := Host.Outcome.next.inj (hs.symm.trans hstep)
    exact ⟨hi, hsp, h0, he⟩
  · obtain rfl := Host.Outcome.next.inj (hs.symm.trans hstep)
    exact ⟨hi, hsp, h0, he⟩
  · obtain ⟨u, hu, rfl⟩ := onNext_eq_next.1 (hs.symm.trans hstep)
    obtain ⟨hi', hsp', h0', he'⟩ :=
      exec_registersOk (s := tick s) hready.2.2 ⟨hi, hsp, h0, he⟩ hu
    exact ⟨hi', hsp', h0', he'⟩

/-- Settles O48: the parameters are kept (O12), memory by its own two lemmas, and I, SP and STACK by
the bounds on what is written to them. -/
theorem stepKeepsInvariant : Obligations.StepKeepsInvariant := by
  intro s t hinv hstep
  obtain ⟨hp, hwf, hvalid, hregs⟩ := (inv_iff s).1 hinv
  obtain ⟨u, hu, -, -, hparams⟩ := runningMachineAlwaysSteps s (running_of_step hstep)
  obtain rfl := Host.Outcome.next.inj (hstep.symm.trans hu)
  rw [inv_iff, hparams]
  exact ⟨hp, stepKeepsMemoryCanonical s t hwf hstep, step_memValid hvalid hstep,
    step_registersOk hregs hstep⟩

/-- Settles O49: no address is listed at reset, I and SP are zero and so is every entry. -/
theorem resetMeetsInvariant : Obligations.ResetMeetsInvariant := by
  have hinv : ∀ p : Params, p.Ok → Inv (State.resetWith p) := fun p hp =>
    { params := hp
      memWf := wf_nil
      memValid := fun _ hc => absurd hc List.not_mem_nil
      index := Nat.zero_le _
      sp := Nat.zero_le _
      entryZero := resetWith_stack_getElem p 0
      entries := fun k => .inl (resetWith_stack_getElem p k) }
  exact ⟨hinv defaultParams (by decide), hinv⟩

end Sys2Proof.Machine
end

section
/-! The statements about one step (40 R70 to R78, 60 R143, R146): which branch of the cycle a state takes. -/

namespace Sys2Proof.Machine

/-- Settles O7: the decoder's answer on the two bytes is the dispatch's on the word at PC, which a
ready machine's step runs. -/
theorem stepRunsDecodedInstruction : Obligations.StepRunsDecodedInstruction :=
  fun _ i hready hdecode => step_of_ready hready ((decode_eq_ok_iff _ _ i).1 hdecode)

/-- Settles O8: only the first branch of the cycle has stop asserted. -/
theorem stopInputStopsTheRun : Obligations.StopInputStopsTheRun := by
  intro s hs hstop
  rcases step_cases s hs with ⟨-, he⟩ | ⟨hno, -⟩ | ⟨hready, -⟩ | ⟨hready, -⟩
  · exact he
  · cases hstop.symm.trans hno
  · cases hstop.symm.trans hready.2.1
  · cases hstop.symm.trans hready.2.1

/-- The lowest address of an access at a that is not in memory, when its last byte is not (60
R146). -/
theorem max_eq_lowest_outside {a n : Nat} (h : n < a + 2) :
    max a n = if n ≤ a then a else a + 1 := by
  split <;> omega

/-- Settles O9: only the fetch's fault has the word out of memory with stop not asserted. -/
theorem fetchOutOfRangeFaults : Obligations.FetchOutOfRangeFaults := by
  intro s hs hstop hpc
  rcases step_cases s hs with ⟨hyes, -⟩ | ⟨-, -, he⟩ | ⟨hready, -⟩ | ⟨hready, -⟩
  · cases hstop.symm.trans hyes
  · rwa [max_eq_lowest_outside hpc] at he
  · exact absurd hready.2.2 (Nat.not_le.2 hpc)
  · exact absurd hready.2.2 (Nat.not_le.2 hpc)

/-- Settles O10: a ready machine without an instruction takes the branch that raises in the ticked
state. -/
theorem unsupportedWordFaults : Obligations.UnsupportedWordFaults := by
  intro s hready hw
  obtain ⟨t, ht, -⟩ := runningMachineAlwaysSteps s hready.1
  rcases step_ready_cases hready ht with ⟨-, rfl⟩ | ⟨i, -, hi, -⟩
  · exact ht
  · cases hw.symm.trans hi

/-- Settles O11: the cycle's match on STATUS answers before anything else is looked at. -/
theorem terminalStatusHasNoStep : Obligations.TerminalStatusHasNoStep := by
  refine fun s => ⟨fun h => ?stopped, fun c h => ?faulted⟩
  case stopped => rw [step, cycle, h]
  case faulted => rw [step, cycle, h]

end Sys2Proof.Machine
end

section
/-! The statements about the call stack (41 R80, R82, R85; 60 R144, R145). -/

namespace Sys2Proof.Machine

/-- CALL below the limit pushes and jumps (41 R82). -/
theorem exec_call_of_lt (nnn : Addr12) {s : State} (h : s.sp.toNat < 15) :
    exec (.call nnn) s = .next (setPc (push s s.pc) (target nnn)) :=
  if_neg (Nat.not_le.2 h)

/-- RET with a stack that is not empty pops (41 R80). -/
theorem exec_ret_of_ne_zero {s : State} (h : s.sp ≠ 0) :
    exec .ret s = .next (pop (setPc s (stackEntry s s.sp + 2))) :=
  if_neg h

/-- Settles O17: the two limits are the first thing CALL and RET look at. -/
theorem stackLimitsFault : Obligations.StackLimitsFault :=
  ⟨fun _ _ h => if_pos h, fun _ h => if_pos h⟩

/-- Settles O15: the push is at SP + 1, which is in the stack below the limit. -/
theorem callPushesItsOwnAddress : Obligations.CallPushesItsOwnAddress :=
  fun nnn s h => ⟨_, exec_call_of_lt nnn h, toNat_sp_succ h, target_toNat nnn,
    getElem_pushed s.stack h s.pc, frame_setPc_push s _ _⟩

/-- Settles O16: the pop moves SP alone, and the entry read is the one SP named. -/
theorem retPopsAndAddsTwo : Obligations.RetPopsAndAddsTwo :=
  fun s h => ⟨_, exec_ret_of_ne_zero h, toNat_sp_pred h, rfl,
    fun hlt => congrArg (· + 2) (stackEntry_of_lt s s.sp hlt), frame_pop_setPc s _⟩

/-- Two steps run one after the other. -/
theorem run_two {s u t : State} (hs : step s = .next u) (hu : step u = .next t) :
    Host.Core.run core 2 s = .next t := by
  have hs' : core.step s = .next u := hs
  have hu' : core.step u = .next t := hu
  simp only [Host.Core.run, hs', hu']

/-- Two ticks take two off a timer, stopping at zero (40 R73). -/
theorem toNat_countDown_countDown (b : Byte) : (countDown (countDown b)).toNat = b.toNat - 2 := by
  rw [countDown_toNat, countDown_toNat, Nat.sub_sub]

/-- The state a CALL's step ends in (41 R82). -/
def afterCall (s : State) (nnn : Addr12) : State :=
  endStep (setPc (push (tick s) s.pc) (target nnn))

/-- A ready machine's step at a CALL below the limit (41 R82). -/
theorem step_call {s : State} {nnn : Addr12} (hready : Ready s)
    (hcall : decodeWord (wordAtPc s) = some (.call nnn)) (hsp : s.sp.toNat < 15) :
    step s = .next (afterCall s nnn) :=
  step_of_exec_tick hready hcall (exec_call_of_lt (s := tick s) nnn hsp)

/-- Behind a CALL SP names the entry just pushed (41 R82). -/
theorem stackEntry_afterCall {s : State} (nnn : Addr12) (hsp : s.sp.toNat < 15) :
    stackEntry (afterCall s nnn) (afterCall s nnn).sp = s.pc := by
  have hnew : (afterCall s nnn).sp.toNat = s.sp.toNat + 1 := toNat_sp_succ hsp
  rw [stackEntry_of_lt _ _ (by omega)]
  exact (getElem_pushed s.stack hsp s.pc ⟨(afterCall s nnn).sp.toNat, by omega⟩).trans (if_pos hnew)

/-- Settles O19: the CALL's step leaves a ready machine at its target, where the RET pops the entry
just pushed. -/
theorem callThenRetRoundTrip : Obligations.CallThenRetRoundTrip := by
  intro s nnn hready hcall hsp hstop hnnn hret
  have hpc : (afterCall s nnn).pc.toNat = nnn.toNat := target_toNat nnn
  have hready' : Ready (afterCall s nnn) :=
    ⟨hready.1, (congrArg Inputs.stop (inputs_congr rfl rfl)).trans hstop, by rwa [hpc]⟩
  have hret' : decodeWord (wordAtPc (afterCall s nnn)) = some .ret := by rwa [wordAtPc, hpc]
  have hne : (afterCall s nnn).sp ≠ 0 := fun h => by
    have hnew : (afterCall s nnn).sp.toNat = s.sp.toNat + 1 := toNat_sp_succ hsp
    rw [h] at hnew
    exact absurd hnew (Nat.succ_ne_zero _).symm
  have hstep := step_of_exec_tick hready' hret' (exec_ret_of_ne_zero (s := tick _) hne)
  have hrun := run_two (step_call hready hcall hsp) hstep
  refine ⟨_, hrun, ?pc, ?sp, ?stack, ?v, ?i, ?mem, ?display, ?status, ?dt, ?st⟩
  case v | i | mem | display | status => simp [afterCall]
  case sp => exact BitVec.add_sub_cancel s.sp 1
  case stack => exact getElem_pushed s.stack hsp s.pc
  case dt => exact toNat_countDown_countDown s.dt
  case st => exact toNat_countDown_countDown s.st
  case pc => exact congrArg (· + 2) (stackEntry_afterCall nnn hsp)

end Sys2Proof.Machine
end

section
/-! The statements about the bitwise rows, SUB and SHR with VF as an operand, and the random byte (43 R97 to R99, R103; 44 R111). -/

namespace Sys2Proof.Machine

/-- OR writes the or of its operands to Vx and advances (43 R97). -/
theorem exec_or (x y : Reg) (s : State) :
    exec (.or x y) s = .next (advance (setV s x (getV s x ||| getV s y))) := rfl

/-- AND writes the and of its operands to Vx and advances (43 R98). -/
theorem exec_and (x y : Reg) (s : State) :
    exec (.and x y) s = .next (advance (setV s x (getV s x &&& getV s y))) := rfl

/-- XOR writes the exclusive or of its operands to Vx and advances (43 R99). -/
theorem exec_xor (x y : Reg) (s : State) :
    exec (.xor x y) s = .next (advance (setV s x (getV s x ^^^ getV s y))) := rfl

/-- RND writes the step's random byte under its mask to Vx and advances (44 R111). -/
theorem exec_rnd (x : Reg) (kk : Byte) (s : State) :
    exec (.rnd x kk) s = .next (advance (setV s x ((inputs s).rnd &&& kk))) := rfl

/-- Settles O24: each row is one register write of a bit vector whose bits are the operation's. -/
theorem bitwiseInstructionsActBitByBit : Obligations.BitwiseInstructionsActBitByBit := by
  refine fun x y s => ⟨⟨_, exec_or x y s, rfl, frame_advance_setV s x _, fun k => ?or⟩,
    ⟨_, exec_and x y s, rfl, frame_advance_setV s x _, fun k => ?and⟩,
    ⟨_, exec_xor x y s, rfl, frame_advance_setV s x _, fun k => ?xor⟩⟩
  case or => rw [getV_advance_setV_same, BitVec.getLsbD_or]
  case and => rw [getV_advance_setV_same, BitVec.getLsbD_and]
  case xor => rw [getV_advance_setV_same, BitVec.getLsbD_xor]

/-- Settles O30: one register write, of an and, which is at most its mask. -/
theorem rndMasksTheRandomByte : Obligations.RndMasksTheRandomByte := by
  refine fun x kk s => ⟨_, exec_rnd x kk s, getV_advance_setV_same s x _, ?bound, rfl,
    frame_advance_setV s x _⟩
  case bound =>
    rw [getV_advance_setV_same, BitVec.toNat_and]
    exact Nat.and_le_right

/-- SUB Vx, Vy: the flag, then the difference of the registers ALIAS_ORDER has it read (43 R101,
R103). -/
theorem exec_sub (x y : Reg) (s : State) :
    exec (.sub x y) s = .next (advance (setV (setVf s (greaterFlag (getV s x) (getV s y))) x
      (getV (secondReads s (setVf s (greaterFlag (getV s x) (getV s y)))) x -
        getV (secondReads s (setVf s (greaterFlag (getV s x) (getV s y)))) y))) := rfl

/-- SHR Vx: the bit shifted out, then the half of the register ALIAS_ORDER has it read (43 R102,
R103). -/
theorem exec_shr (x : Reg) (s : State) :
    exec (.shr x) s = .next (advance (setV (setVf s (shiftedOut (getV s x))) x
      (getV (secondReads s (setVf s (shiftedOut (getV s x)))) x >>> 1))) := rfl

/-- VF as the second statement reads it: the flag just written, or the old value (43 R103). -/
theorem getV_vf_secondReads_setVf (s : State) (f : Byte) :
    getV (secondReads s (setVf s f)) Reg.vf =
      (match s.params.aliasOrder with | .sequential => f | .latched => getV s Reg.vf) := by
  rw [secondReads]
  cases s.params.aliasOrder with
  | sequential => exact (getV_setV s Reg.vf Reg.vf f).trans (if_pos rfl)
  | latched => rfl

/-- With Vx the same register as VF only VF and PC are written (43 R103). -/
theorem frame_advance_setV_vf_setVf (s : State) (f b : Byte) :
    Frame { regs := [Reg.vf] } s (advance (setV (setVf s f) Reg.vf b)) where
  __ := frame_advance_setV_setVf s Reg.vf f b
  regs r hr := (frame_advance_setV_setVf s Reg.vf f b).regs r (by simpa using hr)

/-- The bit shifted out is the last one, so shifting it again leaves nothing (43 R103). -/
theorem shiftedOut_shiftRight (a : Byte) : shiftedOut a >>> 1 = 0 := by
  apply BitVec.eq_of_toNat_eq
  rw [BitVec.toNat_ushiftRight, toNat_shiftedOut, Nat.shiftRight_one]
  exact Nat.div_eq_of_lt (Nat.mod_lt _ Nat.two_pos)

/-- Settles O28: the four rows differ in which of the operands is VF, and so reads the flag just
written under sequential and its old value under latched. -/
theorem vfOperandTable : Obligations.VfOperandTable := by
  refine ⟨fun y s hy => ⟨_, exec_sub Reg.vf y s, ?xVf, rfl, frame_advance_setV_vf_setVf s _ _⟩,
    fun x s hx => ⟨_, exec_sub x Reg.vf s, ?yVfFlag, ?yVf, rfl, frame_advance_setV_setVf s x _ _⟩,
    fun s => ⟨_, exec_sub Reg.vf Reg.vf s, ?both, rfl, frame_advance_setV_vf_setVf s _ _⟩,
    fun s => ⟨_, exec_shr Reg.vf s, ?shr, rfl, frame_advance_setV_vf_setVf s _ _⟩⟩
  case xVf =>
    rw [getV_advance_setV_same, getV_vf_secondReads_setVf, getV_secondReads_setVf s _ hy,
      greaterFlag, flagByte_decide]
    cases s.params.aliasOrder <;> rfl
  case yVfFlag => rw [getV_vf_advance_setV_setVf s _ _ hx, greaterFlag, flagByte_decide]
  case yVf =>
    rw [getV_advance_setV_same, getV_vf_advance_setV_setVf s _ _ hx, getV_vf_secondReads_setVf,
      getV_secondReads_setVf s _ hx]
    cases s.params.aliasOrder <;> rfl
  case both => rw [getV_advance_setV_same, BitVec.sub_self]; rfl
  case shr =>
    rw [getV_advance_setV_same, getV_vf_secondReads_setVf]
    cases s.params.aliasOrder with
    | sequential => exact congrArg BitVec.toNat (shiftedOut_shiftRight _)
    | latched => exact (BitVec.toNat_ushiftRight ..).trans (Nat.shiftRight_one _)

end Sys2Proof.Machine
end

section
/-! The statements about the instructions that access memory at I (44 R112, 46 R130, R131; 60 R146). -/

namespace Sys2Proof.Machine

/-- DRW with its rows in memory sends its command, perhaps writes VF, and advances (44 R112). -/
theorem exec_drw_of_inRange {x y : Reg} {n : BitVec 4} {s : State} (h : DataInRange s n.toNat) :
    exec (.drw x y n) s = .next (advance (collisionToVf (sendDraw s
      { x := getV s x, y := getV s y, rows := readBytes s.mem s.i.toNat n.toNat }))) := by
  rcases execDrw_cases x y n s with ⟨-, he⟩ | ⟨hout, -⟩
  · exact he
  · exact absurd h hout

/-- LD Vx, [I] with its bytes in memory loads V0 to Vx and advances (46 R131). -/
theorem exec_ldRegs_of_inRange {x : Reg} {s : State} (h : DataInRange s (x.toNat + 1)) :
    exec (.ldRegs x) s =
      .next (advance (setVs s 0 (readBytes s.mem s.i.toNat (x.toNat + 1)))) := by
  rcases execLdRegs_cases x s with ⟨-, he⟩ | ⟨hout, -⟩
  · exact he
  · exact absurd h hout

/-- Settles O32: each of the three accesses out of range takes the branch that raises with the
higher of I and MEM_SIZE. -/
theorem dataAccessOutOfRangeFaults : Obligations.DataAccessOutOfRangeFaults := by
  intro x y n s a
  have ha : a = max s.i.toNat s.params.memSize := (max_comm _ _).trans (max_def _ _) |>.symm
  rw [ha]
  refine ⟨fun hout => ?drw, fun hout => ?ldB, fun hout => ?ldRegs⟩
  case drw => exact (execDrw_cases x y n s).elim (fun h => absurd h.1 hout) And.right
  case ldB => exact (execLdB_cases x s).elim (fun h => absurd h.1 hout) And.right
  case ldRegs => exact (execLdRegs_cases x s).elim (fun h => absurd h.1 hout) And.right

/-- VF behind a draw: the collision bit under DRAW_WRITES_VF (44 R112). -/
theorem getV_vf_draw (s : State) (c : DrawCommand) :
    getV (advance (collisionToVf (sendDraw s c))) Reg.vf =
      if s.params.drawWritesVf then (if (inputs s).collision then 0x01 else 0x00)
      else getV s Reg.vf := by
  rw [advance_eq, setPc_getV, getV_collisionToVf]
  simp only [true_and, sendDraw_params, inputs_sendDraw, sendDraw_getV, flagByte]

/-- Settles O31: the command holds the bytes read at I, and the only register a draw may write is
VF. -/
theorem drwSendsOneCommand : Obligations.DrwSendsOneCommand := by
  intro x y n s hin
  have hframe := frame_advance_draw s
    { x := getV s x, y := getV s y, rows := readBytes s.mem s.i.toNat n.toNat }
  refine ⟨_, _, exec_drw_of_inRange hin, ?display, readBytes_length .., readBytes_getElem? _ _ _,
    getV_vf_draw s _, by simp, { hframe with regs := fun r hr => hframe.regs r fun hmem => ?regs }⟩
  case display => rw [collisionToVf_frame]; rfl
  case regs =>
    unfold drawnRegs at hmem
    split at hmem
    · exact hr hmem
    · cases hmem

/-- Settles O38: the three bytes read back are the digits stored. -/
theorem ldBStoresDecimalDigits : Obligations.LdBStoresDecimalDigits := by
  intro x s hin
  have hread : ∀ k, k < 3 → readByte (writeBytes s.mem s.i.toNat (bcdDigits (getV s x)))
      (s.i.toNat + k) = (bcdDigits (getV s x)).getD k 0 := by
    intro k hk
    rw [readByte_writeBytes, if_pos ⟨Nat.le_add_right .., Nat.add_lt_add_left hk _⟩,
      Nat.add_sub_cancel_left]
  refine ⟨_, exec_ldB_of_inRange (.inr hin), ?hundreds, ?tens, ?ones, rfl,
    frame_advance_store s (bcdDigits (getV s x))⟩
  case hundreds => exact (congrArg BitVec.toNat (hread 0 (by decide))).trans BitVec.toNat_udiv
  case tens =>
    refine (congrArg BitVec.toNat (hread 1 (by decide))).trans ?_
    exact BitVec.toNat_umod.trans (congrArg (· % 10) BitVec.toNat_udiv)
  case ones => exact (congrArg BitVec.toNat (hread 2 (by decide))).trans BitVec.toNat_umod

/-- Settles O39: register r up to x holds byte r of those read at I. -/
theorem ldRegsLoadsInclusiveRange : Obligations.LdRegsLoadsInclusiveRange := by
  intro x s hin
  refine ⟨_, exec_ldRegs_of_inRange (.inr hin), fun r => ?load, ?pc,
    frame_advance_setVs s x _ (readBytes_length ..)⟩
  case pc => rw [advance_eq, setPc_pc, setVs_pc]
  case load =>
    rw [advance_eq, setPc_getV, getV_setVs, readBytes_length]
    by_cases hr : r.toNat ≤ x.toNat
    · rw [if_pos hr, if_pos (by omega), List.getD_eq_getElem?_getD,
        readBytes_getElem? _ _ _ _ (by omega)]
      rfl
    · rw [if_neg hr, if_neg (by omega)]

end Sys2Proof.Machine
end

section
/-! The statements about the keyboard skips (45 R120 to R122; 60 R148) and about the inputs nothing else reads (40 R79). -/

namespace Sys2Proof.Machine

/-! ## Keys -/

/-- SKP when the key test answers (45 R120). -/
theorem exec_skp_of_keyDown {x : Reg} {s : State} {b : Bool} (h : keyDown s (getV s x) = .ok b) :
    exec (.skp x) s = .next (skipIf b s) := by
  rw [exec, execSkp, h]
  rfl

/-- SKNP when the key test answers (45 R121). -/
theorem exec_sknp_of_keyDown {x : Reg} {s : State} {b : Bool} (h : keyDown s (getV s x) = .ok b) :
    exec (.sknp x) s = .next (skipIf (!b) s) := by
  rw [exec, execSknp, h]
  rfl

/-- An identifier of a key is tested as it is (45 R122). -/
theorem keyDown_of_le {s : State} {v : Byte} (h : v.toNat ≤ 15) :
    keyDown s v = .ok ((inputs s).keys.getLsbD v.toNat) := by
  have hv : (v.setWidth 4).toNat = v.toNat := by
    rw [BitVec.toNat_setWidth]
    exact Nat.mod_eq_of_lt (Nat.lt_succ_of_le h)
  rw [keyDown, if_pos h, keyPressed, hv]

/-- Above 15 the test raises where KEY_OOR is fault (45 R122, 60 R148). -/
theorem keyDown_of_fault {s : State} {v : Byte} (h : 15 < v.toNat)
    (hp : s.params.keyOor = .fault) : keyDown s v = .error (.keyIndexOutOfRange v) := by
  rw [keyDown, if_neg (Nat.not_le.2 h), hp]

/-- Above 15 no key is down where KEY_OOR is not_pressed (45 R122). -/
theorem keyDown_of_notPressed {s : State} {v : Byte} (h : 15 < v.toNat)
    (hp : s.params.keyOor = .notPressed) : keyDown s v = .ok false := by
  rw [keyDown, if_neg (Nat.not_le.2 h), hp]

/-- Above 15 the low four bits name the key where KEY_OOR is mask4 (45 R122). -/
theorem keyDown_of_mask4 {s : State} {v : Byte} (h : 15 < v.toNat)
    (hp : s.params.keyOor = .mask4) :
    keyDown s v = .ok ((inputs s).keys.getLsbD (v.toNat % 16)) := by
  have hv : (v.setWidth 4).toNat = v.toNat % 16 := BitVec.toNat_setWidth ..
  rw [keyDown, if_neg (Nat.not_le.2 h), hp, keyPressed, hv]

/-- Where a skip on the negated condition leads (40 R76). -/
theorem skipIf_not (b : Bool) (s : State) :
    skipIf (!b) s = setPc s (if b then s.pc + 2 else s.pc + 4) := by
  cases b <;> rfl

/-- Settles O33: both skips follow the level of the key named, SKNP its negation. -/
theorem keySkipsFollowTheKey : Obligations.KeySkipsFollowTheKey := by
  intro x s hle
  have hkey := keyDown_of_le (s := s) hle
  refine ⟨⟨_, exec_skp_of_keyDown hkey, rfl, frame_skipIf _ s⟩,
    ⟨_, exec_sknp_of_keyDown hkey, ?sknp, frame_skipIf _ s⟩⟩
  case sknp => rw [skipIf_not, setPc_pc]

/-- Settles O34: what the key test answers above 15 under each value of the parameter. -/
theorem keyIdentifierAboveFifteen : Obligations.KeyIdentifierAboveFifteen := by
  refine fun x s hlt => ⟨fun hp => ?fault, fun hp => ?notPressed, fun hp => ?mask4⟩
  case fault =>
    have hkey := keyDown_of_fault hlt hp
    exact ⟨by rw [exec, execSkp, hkey]; rfl, by rw [exec, execSknp, hkey]; rfl⟩
  case notPressed =>
    have hkey := keyDown_of_notPressed hlt hp
    exact ⟨exec_skp_of_keyDown hkey, exec_sknp_of_keyDown hkey⟩
  case mask4 =>
    have hkey := keyDown_of_mask4 hlt hp
    have hsknp := exec_sknp_of_keyDown hkey
    rw [skipIf_not] at hsknp
    exact ⟨exec_skp_of_keyDown hkey, hsknp⟩

/-! ## The inputs -/

/-- s with another environment and draw counter (40 R79, log 7). -/
def exchangeInputs (env : List Inputs) (draws : Nat) (s : State) : State :=
  { s with env := env, draws := draws }

section
variable (env : List Inputs) (draws : Nat)

/-- A register load reads no input (46 R131). -/
theorem setVs_exchangeInputs (s : State) (k : Nat) (bs : List Byte) :
    setVs (exchangeInputs env draws s) k bs = exchangeInputs env draws (setVs s k bs) := by
  induction bs generalizing s k with
  | nil => rfl
  | cons b bs ih => exact ih { s with v := s.v.setIfInBounds k b } (k + 1)

/-- Which registers are read second depends on no input (43 R103). -/
theorem secondReads_exchangeInputs (s t : State) :
    secondReads (exchangeInputs env draws s) (exchangeInputs env draws t) =
      exchangeInputs env draws (secondReads s t) := by
  cases h : s.params.aliasOrder <;> simp [secondReads, exchangeInputs, h]

/-- Without DRAW_WRITES_VF a draw does not look at the collision bit (44 R112). -/
theorem collisionToVf_of_off {s : State} (h : s.params.drawWritesVf ≠ true) : collisionToVf s = s :=
  if_neg h

/-- The instructions that read no input do the same whatever the inputs are. -/
theorem exec_exchangeInputs {i : Instr} {s : State} (hskp : ∀ x, i ≠ .skp x)
    (hsknp : ∀ x, i ≠ .sknp x) (hrnd : ∀ x k, i ≠ .rnd x k)
    (hdrw : s.params.drawWritesVf = true → ∀ x y n, i ≠ .drw x y n)
    (hret : i = .ret → s.sp.toNat < 16) :
    exec i (exchangeInputs env draws s) = onNext (exchangeInputs env draws) (exec i s) := by
  cases i with
  | skp x => exact absurd rfl (hskp x)
  | sknp x => exact absurd rfl (hsknp x)
  | rnd x k => exact absurd rfl (hrnd x k)
  | ret =>
    have hentry : stackEntry (exchangeInputs env draws s) s.sp = stackEntry s s.sp := by
      rw [stackEntry_of_lt _ _ (hret rfl), stackEntry_of_lt _ _ (hret rfl)]
      rfl
    by_cases hsp : s.sp = 0
    · rw [stackLimitsFault.2 s hsp, stackLimitsFault.2 (exchangeInputs env draws s) hsp]
      rfl
    · rw [exec_ret_of_ne_zero hsp, exec_ret_of_ne_zero (s := exchangeInputs env draws s) hsp]
      change Host.Outcome.next (pop (setPc (exchangeInputs env draws s)
        (stackEntry (exchangeInputs env draws s) s.sp + 2))) = _
      rw [hentry]
      rfl
  | call a =>
    by_cases hsp : s.sp.toNat < 15
    · rw [exec_call_of_lt a hsp, exec_call_of_lt (s := exchangeInputs env draws s) a hsp]
      rfl
    · rw [stackLimitsFault.1 a s (Nat.not_lt.1 hsp),
        stackLimitsFault.1 a (exchangeInputs env draws s) (Nat.not_lt.1 hsp)]
      rfl
  | drw x y n =>
    have hoff : s.params.drawWritesVf ≠ true := fun h => hdrw h x y n rfl
    by_cases hin : DataInRange s n.toNat
    · rw [exec_drw_of_inRange hin, exec_drw_of_inRange (s := exchangeInputs env draws s) hin,
        collisionToVf_of_off (s := sendDraw s _) hoff,
        collisionToVf_of_off (s := sendDraw (exchangeInputs env draws s) _) hoff]
      rfl
    · rw [(dataAccessOutOfRangeFaults x y n s).1 hin,
        (dataAccessOutOfRangeFaults x y n (exchangeInputs env draws s)).1 hin]
      rfl
  | ldB x =>
    by_cases hin : DataInRange s 3
    · rw [exec_ldB_of_inRange hin, exec_ldB_of_inRange (s := exchangeInputs env draws s) hin]
      rfl
    · rw [(dataAccessOutOfRangeFaults x 0 0 s).2.1 hin,
        (dataAccessOutOfRangeFaults x 0 0 (exchangeInputs env draws s)).2.1 hin]
      rfl
  | ldRegs x =>
    by_cases hin : DataInRange s (x.toNat + 1)
    · rw [exec_ldRegs_of_inRange hin, exec_ldRegs_of_inRange (s := exchangeInputs env draws s) hin,
        setVs_exchangeInputs]
      rfl
    · rw [(dataAccessOutOfRangeFaults x 0 0 s).2.2 hin,
        (dataAccessOutOfRangeFaults x 0 0 (exchangeInputs env draws s)).2.2 hin]
      rfl
  | sub x y =>
    have hflag (f : Byte) : setVf (exchangeInputs env draws s) f =
      exchangeInputs env draws (setVf s f) := rfl
    rw [exec_sub, exec_sub, hflag, secondReads_exchangeInputs]
    rfl
  | shr x =>
    have hflag (f : Byte) : setVf (exchangeInputs env draws s) f =
      exchangeInputs env draws (setVf s f) := rfl
    rw [exec_shr, exec_shr, hflag, secondReads_exchangeInputs]
    rfl
  | _ => rfl

end

/-- Settles O47: what reads no input does the same under an exchange of the inputs. -/
theorem inputsAreReadOnlyWhereListed : Obligations.InputsAreReadOnlyWhereListed :=
  fun _ _ env draws => exec_exchangeInputs env draws

end Sys2Proof.Machine
end

section
/-! The statements about reset and launch (70 R170 to R176, with the defaults of 93 section 2). -/

namespace Sys2Proof.Machine

/-- Settles O53: the sixteen glyphs are compared byte by byte with the default font, whose 80 bytes
end at 79. -/
theorem resetMemoryHoldsTheDefaults : Obligations.ResetMemoryHoldsTheDefaults := by
  refine ⟨fun g r hg hr => ?glyphs, fun a ha => List.getD_eq_default _ _ ha⟩
  case glyphs =>
    revert r
    revert g
    decide

/-- What a reset leaves in memory: FONT from 0, the rest as it was (70 R172, R174). -/
theorem readByte_applyReset (font : List Byte) (s : State) (a : Nat) :
    readByte (applyReset font s).mem a =
      if a < font.length then font.getD a 0 else readByte s.mem a := by
  change readByte (writeBytes s.mem 0 font) a = _
  rw [readByte_writeBytes, Nat.sub_zero, Nat.zero_add]
  simp only [Nat.zero_le, true_and]

/-- Settles O54: the registers are those of reset, memory has FONT written over it. -/
theorem applyResetFromAnyState : Obligations.ApplyResetFromAnyState := by
  intro font s hlen
  refine ⟨resetWith_getV s.params, rfl, resetWith_stack_getElem s.params, rfl, rfl, rfl, rfl, rfl,
    fun a => ?memory⟩
  case memory => rw [readByte_applyReset, hlen]

/-- What the loader leaves in memory: ROM from 0x200, the rest as it was (70 R175). -/
theorem readByte_loadRom (rom : List Byte) (s : State) (a : Nat) :
    readByte (loadRom rom s).mem a =
      if 0x200 ≤ a ∧ a < 0x200 + rom.length then rom.getD (a - 0x200) 0 else readByte s.mem a :=
  readByte_writeBytes s.mem 0x200 a rom

/-- The memory the environment provides reads as MEM_INIT within its size (70 R174). -/
theorem readByte_provideMemory (memInit : Nat → Byte) {n a : Nat} (h : a < n) :
    readByte (provideMemory memInit n) a = memInit a := by
  induction n with
  | zero => exact absurd h (Nat.not_lt_zero a)
  | succ n ih =>
    by_cases ha : a = n
    · subst ha
      exact readByte_writeByte_same _ _ _
    · exact (readByte_writeByte_other _ _ ha).trans (ih (by omega))

/-- Settles O55: the three writers of memory in their order, of which the font and the ROM do not
overlap. -/
theorem launchStateMemory : Obligations.LaunchStateMemory := by
  intro p memInit font rom _ hlen _
  refine ⟨rfl, rfl, fun a ha => ?memory⟩
  case memory =>
    rw [launch, readByte_loadRom, readByte_applyReset, hlen, readByte_provideMemory memInit ha]
    by_cases hfont : a < 80
    · rw [if_neg (by omega)]
      simp only [if_pos hfont]
    · simp only [if_neg hfont]

end Sys2Proof.Machine
end
